-- ==== Sys2Proof/Word.lean ====
section
/-! DEFINITION. The word types of 00_scope.md R5 and R6: bytes, 32-bit packet words, and packets as word sequences. -/

namespace Sys2Proof

/-- A byte: 8 bits, an unsigned value 0..255 (R6). -/
abbrev Byte := BitVec 8

/-- A word: `WORD` = 32 bits (R5, R6). -/
abbrev Word := BitVec 32

/-- A command packet: a finite sequence of words delivered whole on one command port, the header first (R50). -/
abbrev Packet := List Word

end Sys2Proof
end

