-- ==== Sys2Proof/Syntax.lean ====
section
/-! DEFINITION. The four commands (30_encoding.md R53), one constructor for each row of the opcode table, with their
operand fields at the widths of R52; and the source lines an assembler reads (R59, R60). -/

namespace Sys2Proof

/-- The geometry part of a layout descriptor, at the widths of R52 (the state fields of 10_state.md R14). -/
structure Geometry where
  width : BitVec 16
  height : BitVec 16
  stride : BitVec 32
  pstride : Byte
  offR : Byte
  offG : Byte
  offB : Byte
  deriving DecidableEq, Repr

/-- The operands of `CONFIGURE`: a layout category code and the geometry (R52 format C, R81). -/
structure Descriptor where
  layout : Byte
  geom : Geometry
  deriving DecidableEq, Repr

/-- The commands of R53, which are the block's instructions (R1, R4). -/
inductive Instr where
  /-- `SETPARAM v`, format V (R74). -/
  | setparam (v : Word)
  /-- `GETPARAM`, format N (R75). -/
  | getparam
  /-- `CONFIGURE d`, format C (R81). -/
  | configure (d : Descriptor)
  /-- `PROCESS base`, format V (R90). -/
  | process (base : Word)
  deriving DecidableEq, Repr

/-- The opcodes in use (R53). -/
inductive Opcode where
  | setparam
  | getparam
  | configure
  | process
  deriving DecidableEq, Repr

/-- A command as an assembler line names it, its operands natural numbers of any size (R59), and the
pseudo-commands of R60. -/
inductive SourceCommand where
  | setparam (value : Nat)
  | getparam
  | configure (layout width height stride pstride offr offg offb : Nat)
  | process (base : Nat)
  | configurePlanar (width height stride : Nat)
  | configureYuv (width height stride pstride : Nat)
  | configureRgb (width height stride pstride offr offg offb : Nat)
  | setparamDefault
  deriving DecidableEq, Repr

/-- One source line that holds a command: the port it names (R59: default `p0:`) and the command. -/
structure SourceLine where
  port : Nat
  command : SourceCommand
  deriving DecidableEq, Repr

end Sys2Proof
end

