-- ==== Sys2Proof/WellFormed.lean ====
section
/-! DEFINITION. Which packets are legal (30_encoding.md R55, stated apart from the decoder) and which source commands an
assembler accepts (R59). An `Instr` needs no check of its own: every operand field has exactly its encoded width (R52),
so every term of `Instr` is the decoding of a legal packet. -/

namespace Sys2Proof

/-- R55 (b): the opcode field is `0x0` or `0x5` .. `0xF`. -/
def Packet.reservedOpcode (hdr : Word) : Bool :=
  hdr.extractLsb 31 28 == 0#4 || decide (5#4 ≤ hdr.extractLsb 31 28)

/-- R55 (c): the length in words that the opcode's format has (R52, R53); reserved opcodes have none. -/
def Packet.formatLength (hdr : Word) : Nat :=
  match (hdr.extractLsb 31 28).toNat with
  | 1 => 2
  | 2 => 1
  | 3 => 4
  | 4 => 2
  | _ => 0

/-- R55 (d): a must-be-0 bit of the header is 1. -/
def Packet.reservedBitSet (hdr : Word) : Bool :=
  if hdr.extractLsb 31 28 == 3#4 then hdr.extractLsb 27 8 != 0#20 else hdr.extractLsb 27 0 != 0#28

/-- R55: a packet is illegal when it has no words, a reserved opcode, a wrong length or a reserved bit set. -/
def Packet.illegal : Packet → Bool
  | [] => true
  | hdr :: ops =>
    Packet.reservedOpcode hdr || (ops.length + 1 != Packet.formatLength hdr) || Packet.reservedBitSet hdr

/-- The operand ranges of R59; an assembler refuses a value outside its range. -/
def SourceCommand.wellFormed : SourceCommand → Bool
  | .setparam value => decide (value < 2 ^ 32)
  | .getparam => true
  | .configure layout width height stride pstride offr offg offb =>
    decide (layout < 2 ^ 8) && decide (width < 2 ^ 16) && decide (height < 2 ^ 16) && decide (stride < 2 ^ 32) &&
      decide (pstride < 2 ^ 8) && decide (offr < 2 ^ 8) && decide (offg < 2 ^ 8) && decide (offb < 2 ^ 8)
  | .process base => decide (base < 2 ^ 32)
  | .configurePlanar width height stride =>
    decide (width < 2 ^ 16) && decide (height < 2 ^ 16) && decide (stride < 2 ^ 32)
  | .configureYuv width height stride pstride =>
    decide (width < 2 ^ 16) && decide (height < 2 ^ 16) && decide (stride < 2 ^ 32) && decide (pstride < 2 ^ 8)
  | .configureRgb width height stride pstride offr offg offb =>
    decide (width < 2 ^ 16) && decide (height < 2 ^ 16) && decide (stride < 2 ^ 32) && decide (pstride < 2 ^ 8) &&
      decide (offr < 2 ^ 8) && decide (offg < 2 ^ 8) && decide (offb < 2 ^ 8)
  | .setparamDefault => true

end Sys2Proof
end

