-- ==== Sys2Proof/Decode.lean ====
section
/-! DEFINITION. The decoder of 30_encoding.md R56, total on packets and rejecting by name (R55), the encoder that is its
inverse, and the host's `decodeTableWord`. -/

namespace Sys2Proof

/-- Why a packet is illegal, the clauses (a) to (d) of R55 in the order the decoder finds them. -/
inductive IllegalPacket where
  /-- (a) it has no words. -/
  | noWords
  /-- (b) its opcode is `0x0` or `0x5` .. `0xF`. -/
  | reservedOpcode
  /-- (c) its length is not that of its opcode's format. -/
  | wrongLength
  /-- (d) a must-be-0 bit of its header is 1. -/
  | reservedBits
  deriving DecidableEq, Repr

/-- The opcode map of R53. -/
def Opcode.ofBits (opc : BitVec 4) : Option Opcode :=
  match opc.toNat with
  | 1 => some .setparam
  | 2 => some .getparam
  | 3 => some .configure
  | 4 => some .process
  | _ => none

/-- The code of each opcode (R53). -/
def Opcode.bits : Opcode → BitVec 4
  | .setparam => 0x1#4
  | .getparam => 0x2#4
  | .configure => 0x3#4
  | .process => 0x4#4

/-- The length in words of each opcode's format (R52, R53). -/
def Opcode.length : Opcode → Nat
  | .setparam => 2
  | .getparam => 1
  | .configure => 4
  | .process => 2

/-- `P[0][31:28]`, the `OPC` field (R51). -/
def opcField (hdr : Word) : BitVec 4 := hdr.extractLsb 31 28

/-- The descriptor fields of a format C packet, bit for bit as R56 lists them. -/
def descriptorOf (hdr p1 p2 p3 : Word) : Descriptor where
  layout := hdr.extractLsb 7 0
  geom :=
    { width := p1.extractLsb 15 0
      height := p1.extractLsb 31 16
      stride := p2
      pstride := p3.extractLsb 7 0
      offR := p3.extractLsb 15 8
      offG := p3.extractLsb 23 16
      offB := p3.extractLsb 31 24 }

/-- Formats N and V: bits 27:0 of the header must be 0 (R52). -/
def whenReservedZero (hdr : Word) (i : Instr) : Except IllegalPacket Instr :=
  if hdr.extractLsb 27 0 = 0#28 then .ok i else .error .reservedBits

/-- `Decode` of R56, a total function on packets. -/
def decodePacket : Packet → Except IllegalPacket Instr
  | [] => .error .noWords
  | hdr :: ops =>
    match Opcode.ofBits (opcField hdr) with
    | none => .error .reservedOpcode
    | some .setparam =>
      match ops with
      | [v] => whenReservedZero hdr (.setparam v)
      | _ => .error .wrongLength
    | some .getparam =>
      match ops with
      | [] => whenReservedZero hdr .getparam
      | _ => .error .wrongLength
    | some .configure =>
      match ops with
      | [p1, p2, p3] =>
        if hdr.extractLsb 27 8 = 0#20 then .ok (.configure (descriptorOf hdr p1 p2 p3)) else .error .reservedBits
      | _ => .error .wrongLength
    | some .process =>
      match ops with
      | [base] => whenReservedZero hdr (.process base)
      | _ => .error .wrongLength

/-- The header of formats N and V: the opcode over 28 zero bits (R52). -/
def plainHeader (op : Opcode) : Word := op.bits ++ 0#28

/-- The header of format C: the opcode, 20 zero bits, `LAYOUT` (R52). -/
def layoutHeader (layout : Byte) : Word := Opcode.configure.bits ++ 0#20 ++ layout

/-- `Encode` of R56: the packet of a command, from the format tables of R52. -/
def encode : Instr → Packet
  | .setparam v => [plainHeader .setparam, v]
  | .getparam => [plainHeader .getparam]
  | .configure d =>
    [layoutHeader d.layout, d.geom.height ++ d.geom.width, d.geom.stride,
      d.geom.offB ++ d.geom.offG ++ d.geom.offR ++ d.geom.pstride]
  | .process base => [plainHeader .process, base]

/-- The packet whose first word holds bits 31:0 of `w`, its second bits 63:32, and so on, every bit from `nbits` up being
0: at least as many words as `nbits` fills, and as many as the header's format has (notes/assumptions/12.md). -/
def packetOfBits (nbits w : Nat) : Packet :=
  let bits := w % 2 ^ nbits
  let formatWords := ((Opcode.ofBits (opcField (BitVec.ofNat 32 bits))).map Opcode.length).getD 1
  (List.range (max ((nbits + 31) / 32) formatWords)).map fun i => BitVec.ofNat 32 (bits >>> (32 * i))

/-- The host's question: the command this decoder reads from a packet given as one number, bit 0 being the least
significant bit of the first word. -/
def decodeTableWord (nbits w : Nat) : Option Instr :=
  match decodePacket (packetOfBits nbits w) with
  | .ok i => some i
  | .error _ => none

end Sys2Proof
end

