-- ==== Sys2Proof/Config.lean ====
section
/-! DEFINITION. What an implementation fixes and the spec leaves as a parameter (00_scope.md R5), and the one free value
of the model. The default values of the parameters stand in Machine/Constants.lean and Machine/ColorMatrix.lean. -/

namespace Sys2Proof

/-- One row `(c0, c1, c2, c3)` of a coefficient set, signed integers (R105). -/
structure CoefRow where
  c0 : Int
  c1 : Int
  c2 : Int
  c3 : Int
  deriving DecidableEq, Repr

/-- A 3×4 coefficient set: rows Y, Cb, Cr for `COEF_FWD`, rows R, G, B for `COEF_INV` (R105). -/
structure CoefSet where
  row0 : CoefRow
  row1 : CoefRow
  row2 : CoefRow
  deriving DecidableEq, Repr

/-- The rows of R5 marked *parameter*, which a model takes as arguments: every statement over all states is a statement
over all their values (notes/assumptions/1.md). -/
structure Params where
  /-- `AW`, the width in bits of a frame-memory address. -/
  aw : Nat
  /-- `NPORT`, the number of command ports. -/
  nport : Nat
  /-- `COEF_FWD`, RGB to YCbCr. -/
  coefFwd : CoefSet
  /-- `COEF_INV`, YCbCr to RGB. -/
  coefInv : CoefSet
  deriving DecidableEq, Repr

/-- FREE VALUE (notes/assumptions/6.md). Which of several waiting ports is served is "not determined (any choice is
allowed at each step)" (R21). With no body: nothing can prove which port it names. It is applied to a plain counter of
State, so each choice is fresh, and reduced to the ports that have a packet waiting. -/
opaque Config.arbiter : Nat → Nat

end Sys2Proof
end

