-- ==== Sys2Proof/Machine/Constants.lean ====
section
/-! DEFINITION. The fixed constants of 00_scope.md R5 and the default values of `AW` and `NPORT`. -/

namespace Sys2Proof.Machine

/-- `AW`, default 32 (R5). -/
def awDefault : Nat := 32

/-- `NPORT`, default 2 (R5). -/
def nportDefault : Nat := 2

/-- `PARAM_MIN_BITS`, the lowest legal `PARAM` pattern (R5, R11). -/
def paramMinBits : Word := 0x3C23D70A#32

/-- `PARAM_MAX_BITS`, the highest legal `PARAM` pattern (R5, R11). -/
def paramMaxBits : Word := 0x41200000#32

/-- `PARAM_RESET_BITS`, the reset value of `PARAM` (R5, R24). -/
def paramResetBits : Word := 0x3F800000#32

/-- `LUMA_LO`, `LUMA_HI`: the output range of the luma table (R5). -/
def lumaLo : Nat := 16
/-- `LUMA_HI` (R5). -/
def lumaHi : Nat := 235

/-- `CHROMA_LO`: the lower end of the chroma table's output range (R5). -/
def chromaLo : Nat := 16
/-- `CHROMA_HI` (R5). -/
def chromaHi : Nat := 240

/-- `LAYOUT_PLANAR` (R5, R54). -/
def layoutPlanar : Byte := 1#8
/-- `LAYOUT_PACKED_YUV` (R5, R54). -/
def layoutPackedYUV : Byte := 2#8
/-- `LAYOUT_PACKED_RGB` (R5, R54). -/
def layoutPackedRGB : Byte := 3#8

end Sys2Proof.Machine
end

