-- ==== Sys2Proof/Machine/Tables.lean ====
section
/-! DEFINITION. TableGenerator's functions (40_table_generator.md R70, R71) and the two tables they fill (R73). -/

namespace Sys2Proof.Machine

/-- A 256-entry byte table (10_state.md R12). -/
abbrev Table := Vector Byte 256

/-- `LumaEntry(n)` in its integer form: the slope is `2 * (LUMA_HI - LUMA_LO)` = 438 (R70). -/
def lumaEntry (n : Nat) : Nat := (2 * (lumaHi - lumaLo) * n + 255) / 510 + lumaLo

/-- `ChromaEntry(n)` in its integer form: the slope is `2 * (CHROMA_HI - CHROMA_LO)` = 448 (R71). -/
def chromaEntry (n : Nat) : Nat := (2 * (chromaHi - chromaLo) * n + 255) / 510 + chromaLo

/-- The table whose entry `n` is the byte `f n`. -/
def tableOf (f : Nat → Nat) : Table :=
  ⟨((List.range 256).map fun n => BitVec.ofNat 8 (f n)).toArray, by simp⟩

/-- The contents `BuildTables` gives `LUMA` (R73). -/
def lumaTable : Table := tableOf lumaEntry

/-- The contents `BuildTables` gives `CHROMA` (R73). -/
def chromaTable : Table := tableOf chromaEntry

/-- `LUMA[n]`, `CHROMA[n]`: read of entry `n` of a table, `n` a byte (R7). -/
def lookup (t : Table) (n : Byte) : Byte := t[n.toNat]'n.isLt

end Sys2Proof.Machine
end

