-- ==== Sys2Proof/Machine/ColorMatrix.lean ====
section
/-! DEFINITION. ColorMatrix: the default coefficient sets, the fixed-point row operation, the clamp and one pixel of the
packed-RGB strategy (43_packed_rgb_colormatrix.md R105 to R109). -/

namespace Sys2Proof.Machine

/-- The default `COEF_FWD`, RGB to YCbCr (R105; PRESUMED, from general knowledge by the spec's own account, G1,
notes/assumptions/2.md). -/
def coefFwdDefault : CoefSet where
  row0 := ⟨66, 129, 25, 4096⟩
  row1 := ⟨-38, -74, 112, 32768⟩
  row2 := ⟨112, -94, -18, 32768⟩

/-- The default `COEF_INV`, YCbCr to RGB (R105; PRESUMED, G1, notes/assumptions/2.md). -/
def coefInvDefault : CoefSet where
  row0 := ⟨298, 0, 409, -57068⟩
  row1 := ⟨298, -100, -208, 34707⟩
  row2 := ⟨298, 516, 0, -70870⟩

/-- The default of every parameter of R5. -/
def paramsDefault : Params where
  aw := awDefault
  nport := nportDefault
  coefFwd := coefFwdDefault
  coefInv := coefInvDefault

/-- The sum of R106 before the shift, formed exactly. -/
def rowSum (c : CoefRow) (v1 v2 v3 : Int) : Int := c.c0 * v1 + c.c1 * v2 + c.c2 * v3 + c.c3

/-- `ApplyRow` (R106): the exact sum divided by 256 rounding toward minus infinity (R6). -/
def applyRow (c : CoefRow) (v1 v2 v3 : Int) : Int := Int.fdiv (rowSum c v1 v2 v3) 256

/-- `ApplyMatrix` (R106): the three rows applied to one triple. -/
def applyMatrix (m : CoefSet) (v1 v2 v3 : Int) : Int × Int × Int :=
  (applyRow m.row0 v1 v2 v3, applyRow m.row1 v1 v2 v3, applyRow m.row2 v1 v2 v3)

/-- `Clamp8` (R107). -/
def clamp8 (x : Int) : Byte :=
  if x < 0 then 0#8 else if 255 < x then 255#8 else BitVec.ofNat 8 x.toNat

/-- A byte read as an integer 0..255 (R109). -/
def byteInt (b : Byte) : Int := Int.ofNat b.toNat

/-- `RGBPixel(r, g, b)` (R109): forward matrix, clamp of Y alone, luma table on Y, inverse matrix with Cb and Cr as they
came, clamp of each channel. -/
def rgbPixel (p : Params) (luma : Table) (r g b : Byte) : Byte × Byte × Byte :=
  let ycc := applyMatrix p.coefFwd (byteInt r) (byteInt g) (byteInt b)
  let y2 := lookup luma (clamp8 ycc.1)
  let rgb := applyMatrix p.coefInv (byteInt y2) ycc.2.1 ycc.2.2
  (clamp8 rgb.1, clamp8 rgb.2.1, clamp8 rgb.2.2)

/-- The round trip of the matrix pair without the luma remap (R111), a property of the coefficient sets: the block never
omits the remap. -/
def roundTrip (p : Params) (r g b : Byte) : Byte × Byte × Byte :=
  let ycc := applyMatrix p.coefFwd (byteInt r) (byteInt g) (byteInt b)
  let rgb := applyMatrix p.coefInv (byteInt (clamp8 ycc.1)) ycc.2.1 ycc.2.2
  (clamp8 rgb.1, clamp8 rgb.2.1, clamp8 rgb.2.2)

/-- The condition of R108 on one forward row. -/
abbrev rowFitsFwd (c : CoefRow) : Prop := (|c.c0| + |c.c1| + |c.c2|) * 255 + |c.c3| < 2 ^ 31

/-- The condition of R108 on one inverse row, `vmax` being the largest magnitude of a forward `Cb` or `Cr`. -/
abbrev rowFitsInv (vmax : Int) (c : CoefRow) : Prop := |c.c0| * 255 + (|c.c1| + |c.c2|) * vmax + |c.c3| < 2 ^ 31

/-- `NoOverflow32` (R108): a 32-bit accumulator would hold every sum. The model computes in unbounded integers. -/
abbrev noOverflow32 (p : Params) (vmax : Int) : Prop :=
  (rowFitsFwd p.coefFwd.row0 ∧ rowFitsFwd p.coefFwd.row1 ∧ rowFitsFwd p.coefFwd.row2) ∧
    rowFitsInv vmax p.coefInv.row0 ∧ rowFitsInv vmax p.coefInv.row1 ∧ rowFitsInv vmax p.coefInv.row2

/-- `vmax` bounds the magnitude of every forward `Cb` and `Cr` (R108). -/
def boundsChroma (p : Params) (vmax : Int) : Prop :=
  ∀ r g b : Byte, |applyRow p.coefFwd.row1 (byteInt r) (byteInt g) (byteInt b)| ≤ vmax ∧
    |applyRow p.coefFwd.row2 (byteInt r) (byteInt g) (byteInt b)| ≤ vmax

end Sys2Proof.Machine
end

