-- ==== Sys2Proof/Machine/State.lean ====
section
/-! DEFINITION. The whole state (10_state.md R10 to R25), frame memory (20_memory.md R30), the command ports with the
packets waiting and the responses given (R20, R21), and the model's own fields, each marked as such. Plain data. -/

namespace Sys2Proof.Machine

/-- `MODE`, the current strategy: 2 bits, whose four values R13 names. -/
inductive Mode where
  | unconfigured
  | planar
  | packedYUV
  | packedRGB
  deriving DecidableEq, Repr

/-- The causes of a fault (R17, 60_exceptions.md R121). -/
inductive FaultCause where
  | illegalCommand
  | paramRange
  | notConfigured
  deriving DecidableEq, Repr

/-- The result codes that are ever emitted (30_encoding.md R58; codes 3 to 15 never are, U16). -/
inductive RCode where
  | ok
  | unsupportedFormat
  | fault
  deriving DecidableEq, Repr

/-- A response packet (R57): `RCODE` and the `DATA` word. -/
structure Response where
  rcode : RCode
  data : Word
  deriving DecidableEq, Repr

/-- One command port: the packets waiting, oldest first, and the responses emitted on it and not yet collected by its
host, oldest first (R20, R21, R129: a port has no other state). -/
structure Port where
  packets : List Packet
  responses : List Response
  deriving DecidableEq, Repr

/-- What one host and the block owe each other about frame memory on one port (20_memory.md R38): for each packet
waiting, oldest first, the addresses hosts have read or written since it was sent, and for each response its host has not
collected, oldest first, the bytes that are the block's until then. -/
structure Ledger where
  touched : List (List Nat)
  owned : List (List Nat)
  deriving DecidableEq, Repr

/-- Whether an access reads or writes. -/
inductive AccessKind where
  | read
  | write
  deriving DecidableEq, Repr

/-- An access event, recorded for every `MemRead` and `MemWrite` of one byte (00_scope.md R7, 20_memory.md R36). -/
structure BusEvent where
  kind : AccessKind
  addr : Nat
  deriving DecidableEq, Repr

/-- What happens next outside the block or is left open by R21: what one step performs (notes/assumptions/5.md). -/
inductive Event where
  /-- The block takes the next packet from port `k` (R21: any waiting port may be chosen). -/
  | take (k : Nat)
  /-- Host `k` sends a packet on its port (R20, R21). -/
  | send (k : Nat) (p : Packet)
  /-- Host `k` collects the oldest response of its port (R57, R132). -/
  | collect (k : Nat)
  /-- Reset is asserted and released while no command executes (70_reset_and_hazards.md R140). -/
  | reset
  /-- The block takes the next packet from port `k` and reset is asserted once the command has made `n` accesses
  (R142). -/
  | cut (k : Nat) (n : Nat)
  /-- A host writes byte `v` at address `addr` of frame memory while no command executes (20_memory.md R38). -/
  | store (addr : Nat) (v : Byte)
  /-- A host reads the byte at address `addr` of frame memory while no command executes (R38); reads have no side effect
  (R39 (a)). -/
  | load (addr : Nat)
  deriving DecidableEq, Repr

/-- Frame memory: the bytes that are provided, by address (R30). Canonical form: addresses strictly rising. An address
not listed is not provided (R39 (b), U17; notes/assumptions/4.md). -/
abbrev Memory := List Host.Cell

/-- The canonical form of memory: addresses strictly rise, so equal memories are equal lists. -/
abbrev Memory.wf (m : Memory) : Prop := m.Pairwise fun c d => c.1 < d.1

/-- Every listed address lies in the address space `0 .. 2^aw - 1` (R30). -/
abbrev Memory.inSpace (m : Memory) (aw : Nat) : Prop := ∀ c ∈ m, c.1 < 2 ^ aw

/-- The state of the machine. -/
structure State where
  /-- The parameters of R5; no step changes them. -/
  params : Params
  /-- `PARAM` (R11). -/
  param : Word
  /-- `LUMA[0..255]` (R12). -/
  luma : Table
  /-- `CHROMA[0..255]` (R12). -/
  chroma : Table
  /-- `MODE` (R13). -/
  mode : Mode
  /-- `CFGERR` (R15). -/
  cfgerr : Bool
  /-- `WIDTH`, `HEIGHT`, `STRIDE`, `PSTRIDE`, `OFF_R`, `OFF_G`, `OFF_B` (R14). -/
  geom : Geometry
  /-- `FAULT` (R17). -/
  fault : Bool
  /-- `FCODE` (R17). -/
  fcode : BitVec 2
  /-- The command ports (R20, R21). -/
  ports : List Port
  /-- Frame memory, which the host owns (R30). -/
  mem : Memory
  /-- MODEL'S OWN: the ledgers of frame ownership, one for each port (R38; notes/assumptions/10.md). -/
  ledger : List Ledger
  /-- MODEL'S OWN: the port `k` of the command in execution, R23's `step(S, k, P)` (notes/assumptions/7.md). -/
  port : Nat
  /-- MODEL'S OWN: a counter the free arbitration value is applied to (notes/assumptions/6.md). -/
  taken : Nat
  /-- MODEL'S OWN: the events still to come, the next first (notes/assumptions/5.md). -/
  env : List Event
  /-- MODEL'S OWN: the access events recorded on the memory master port, oldest first (R7, R36;
  notes/assumptions/8.md). -/
  busLog : List BusEvent
  deriving DecidableEq, Repr

/-- Why a step stops. -/
inductive Fault where
  /-- Raised by `State.runAccesses`, so by `PROCESS` and by a reset that cuts a `PROCESS` short: the frame memory of the
  launch does not provide this address of the footprint, and the command has no step (R39 (b), U17: stuck). SAFE: the
  model stops where memory that is there would let it go on (notes/assumptions/4.md). -/
  | memoryNotProvided (addr : Nat)
  /-- Raised where a host has read or written a byte of the footprint of a `PROCESS` between sending it and having its
  response: by `takeFrom` and `cutFrom` when the `PROCESS` is about to execute after such an access, and by `hostAccess`
  for an access after it. "a model should give the run no meaning (refuse it) rather than pick a value" (R38, U11).
  SAFE (notes/assumptions/10.md). -/
  | frameRace (addr : Nat)
  /-- Raised by `hostAccess`: a host reads or writes at an address that frame memory does not have (R30). SAFE. -/
  | outsideFrameMemory (addr : Nat)
  deriving DecidableEq, Repr

/-- Why an instruction has no meaning. -/
inductive Refusal where
  /-- For an arm of `exec` that has no meaning yet; none is left, so nothing raises it. SAFE. -/
  | notModelled (mnemonic : String)
  deriving DecidableEq, Repr

/-- All geometry fields zero, their reset value (R24). -/
def geometryZero : Geometry := ⟨0#16, 0#16, 0#32, 0#8, 0#8, 0#8, 0#8⟩

/-- A port with no packet waiting and no response owed (R24). -/
def emptyPort : Port := ⟨[], []⟩

/-- A ledger with nothing waiting and nothing owned. -/
def emptyLedger : Ledger := ⟨[], []⟩

/-- The state right after reset: the fields of R24, the default parameters, no byte of frame memory listed, and the
model's own fields empty. -/
def State.reset : State where
  params := paramsDefault
  param := paramResetBits
  luma := lumaTable
  chroma := chromaTable
  mode := .unconfigured
  cfgerr := false
  geom := geometryZero
  fault := false
  fcode := 0#2
  ports := List.replicate nportDefault emptyPort
  mem := []
  ledger := List.replicate nportDefault emptyLedger
  port := 0
  taken := 0
  env := []
  busLog := []

end Sys2Proof.Machine
end

