-- ==== Sys2Proof/Machine/Ops.lean ====
section
/-! DEFINITION. The named operations over memory, the command ports and the state: single-byte access (00_scope.md R7),
responses (30_encoding.md R57, R58), the entry of the two events and the faulted answer (60_exceptions.md R122 to R124),
and reset (70_reset_and_hazards.md R140, R141). -/

namespace Sys2Proof.Machine

/-- `MemRead(addr, 1)` (R7, R31): the byte provided at an address, none where none is provided (U17). -/
def Memory.read : Memory → Nat → Option Byte
  | [], _ => none
  | (k, b) :: rest, a => if a = k then some b else if a < k then none else Memory.read rest a

/-- `MemWrite(addr, 1, v)` (R7, R31): the byte is put in its place in the rising order. -/
def Memory.write : Memory → Nat → Byte → Memory
  | [], a, v => [(a, v)]
  | (k, b) :: rest, a, v =>
    if a = k then (a, v) :: rest else if a < k then (a, v) :: (k, b) :: rest else (k, b) :: Memory.write rest a v

/-- The code of each `MODE` value (R13). -/
def Mode.code : Mode → BitVec 2
  | .unconfigured => 0#2
  | .planar => 1#2
  | .packedYUV => 2#2
  | .packedRGB => 3#2

/-- The `FCODE` of each cause (R17, R121). -/
def FaultCause.code : FaultCause → BitVec 2
  | .illegalCommand => 1#2
  | .paramRange => 2#2
  | .notConfigured => 3#2

/-- The 4-bit `RCODE` of each result (R58). -/
def RCode.code : RCode → BitVec 4
  | .ok => 0#4
  | .unsupportedFormat => 1#4
  | .fault => 2#4

/-- The two words of a response packet (R57): `RCODE` in bits 3:0 of the first, `DATA` the second. -/
def Response.words (q : Response) : List Word := [q.rcode.code.setWidth 32, q.data]

/-- A port after one more response on it (R57). -/
def Port.answered (q : Port) (r : Response) : Port := { q with responses := q.responses ++ [r] }

/-- A port after its oldest packet was taken (R21). -/
def Port.served (q : Port) : Port := { q with packets := q.packets.tail }

/-- A port after its host sent one more packet (R21: in the order sent). -/
def Port.received (q : Port) (p : Packet) : Port := { q with packets := q.packets ++ [p] }

/-- A port after its host collected the oldest response. -/
def Port.collected (q : Port) : Port := { q with responses := q.responses.tail }

/-- `respond(port, RCODE, DATA)` on the port the command arrived on (R7, R57, R58). -/
def State.respond (s : State) (rc : RCode) (data : Word) : State :=
  { s with ports := s.ports.modify s.port fun q => q.answered ⟨rc, data⟩ }

/-- `raise Fault(code)`, the ONE entry of a fault (R123): `FAULT`, `FCODE`, the response, nothing else. -/
def State.raiseFault (s : State) (c : FaultCause) : State :=
  { s with fault := true, fcode := c.code }.respond .fault (c.code.setWidth 32)

/-- `raise UnsupportedFormat(layout)`, the entry of the format error (R122). -/
def State.raiseUnsupportedFormat (s : State) (layout : Byte) : State :=
  { s with cfgerr := true }.respond .unsupportedFormat (layout.setWidth 32)

/-- The answer to any packet while `FAULT = 1` (R124). -/
def State.answerFaulted (s : State) : State := s.respond .fault (s.fcode.setWidth 32)

/-- `BuildTables(p)` (R73): both tables wholesale, the argument not used. -/
def State.buildTables (s : State) (_p : Word) : State := { s with luma := lumaTable, chroma := chromaTable }

/-- The oldest packet waiting on port `k` (R21). -/
def State.front (s : State) (k : Nat) : Option Packet := (s.ports[k]?).bind fun q => q.packets.head?

/-- A ledger after its host sent one more packet: nothing touched since. -/
def Ledger.sent (l : Ledger) : Ledger := { l with touched := l.touched ++ [[]] }

/-- A ledger after the oldest packet was taken, whose command makes the bytes of `claim` the block's (R38). -/
def Ledger.taken (l : Ledger) (claim : List Nat) : Ledger := ⟨l.touched.tail, l.owned ++ [claim]⟩

/-- A ledger after its host collected the oldest response, and with it the frame (R37, R38). -/
def Ledger.collected (l : Ledger) : Ledger := { l with owned := l.owned.tail }

/-- A ledger after a host read or wrote the byte at an address, while every packet of it that waits was waiting. -/
def Ledger.accessed (l : Ledger) (addr : Nat) : Ledger := { l with touched := l.touched.map (addr :: ·) }

/-- Host `k` sends a packet (R21). A port that does not exist takes nothing. -/
def State.send (s : State) (k : Nat) (p : Packet) : State :=
  { s with ports := s.ports.modify k fun q => q.received p, ledger := s.ledger.modify k Ledger.sent }

/-- Host `k` collects the oldest response of its port (R132). -/
def State.collect (s : State) (k : Nat) : State :=
  { s with ports := s.ports.modify k Port.collected, ledger := s.ledger.modify k Ledger.collected }

/-- A host reads or writes the byte at an address: every ledger notes it. -/
def State.noteAccess (s : State) (addr : Nat) : State :=
  { s with ledger := s.ledger.map fun l => l.accessed addr }

/-- The byte belongs to the block: it is in the footprint of a `PROCESS` executed, whose response its host has not
collected (R38). -/
def State.owns (s : State) (addr : Nat) : Bool := s.ledger.any fun l => l.owned.any fun o => o.contains addr

/-- The addresses hosts have read or written since the oldest packet waiting on port `k` was sent. -/
def State.touchedSince (s : State) (k : Nat) : List Nat := ((s.ledger[k]?).bind fun l => l.touched.head?).getD []

/-- The ports that have a packet waiting, in rising order. -/
def State.waiting (s : State) : List Nat :=
  (List.range s.ports.length).filter fun k => (s.front k).isSome

/-- The port served next when no event says which (R21): none when nothing waits, the only one when one waits, and the
free choice of `Config.arbiter` among them when several wait (notes/assumptions/6.md). -/
def State.arbitrate (s : State) : Option Nat :=
  match s.waiting with
  | [] => none
  | [k] => some k
  | k :: l :: ks => (k :: l :: ks)[Config.arbiter s.taken % (ks.length + 2)]?

/-- Reset (R24, R140): every field of R10 at its reset value and the ports empty. Frame memory, the parameters and the
coefficient sets are not touched (R141); nor is what lies outside the block, `env`, `taken` and `busLog`
(notes/assumptions/13.md). No command is left to own a byte, so the ledgers are empty. -/
def State.applyReset (s : State) : State :=
  { s with
    param := paramResetBits
    luma := lumaTable
    chroma := chromaTable
    mode := .unconfigured
    cfgerr := false
    geom := geometryZero
    fault := false
    fcode := 0#2
    ports := List.replicate s.params.nport emptyPort
    ledger := List.replicate s.params.nport emptyLedger
    port := 0 }

end Sys2Proof.Machine
end

