-- ==== Sys2Proof/Machine/Flags.lean ====
section
/-! DEFINITION. The block has no arithmetic flags (10_state.md R18): its flag-like bits are `CFGERR` and `FAULT`, and what
decides them are the commands' own checks, written here once (60_exceptions.md R125 (3)). -/

namespace Sys2Proof.Machine

/-- A legal `PARAM` pattern: an unsigned comparison of 32-bit patterns (R11, R74). -/
def paramLegal (v : Word) : Bool := decide (paramMinBits ≤ v) && decide (v ≤ paramMaxBits)

/-- `SelectStrategy(layout)` (R80); none is UnsupportedFormatError. -/
def selectStrategy (layout : Byte) : Option Mode :=
  if layout = layoutPlanar then some .planar
  else if layout = layoutPackedYUV then some .packedYUV
  else if layout = layoutPackedRGB then some .packedRGB
  else none

/-- The check of `PROCESS`: no successful `CONFIGURE` is in force (R90). -/
def State.notConfigured (s : State) : Bool := s.mode == .unconfigured || s.cfgerr

end Sys2Proof.Machine
end

