-- ==== Sys2Proof/Machine/Operands.lean ====
section
/-! DEFINITION. Effective addresses (20_memory.md R34, R35), the accesses each strategy issues for one unit and for a frame,
in order (R36, 42_process_frame.md R91, R92, 43_packed_rgb_colormatrix.md R109), the footprint (R35, R40), and the taking of
a packet, which makes a footprint the block's (R38). -/

namespace Sys2Proof.Machine

/-- `wrapAW(x)`: reduction modulo `2^AW` (R7, R34). -/
def wrapAW (p : Params) (x : Nat) : Nat := x % 2 ^ p.aw

/-- `BASE + i*STRIDE + j*PSTRIDE`, a natural number: where unit `(i, j)` of a packed frame begins (R35). -/
def State.unitStart (s : State) (base : Word) (i j : Nat) : Nat :=
  base.toNat + i * s.geom.stride.toNat + j * s.geom.pstride.toNat

/-- `A(i,j)` of the planar strategy: one byte a unit, `PSTRIDE` not read (R35). -/
def State.planarAddr (s : State) (base : Word) (i j : Nat) : Nat :=
  wrapAW s.params (base.toNat + i * s.geom.stride.toNat + j)

/-- `AY(i,j)` of the packed-YUV strategy (R35). -/
def State.yAddr (s : State) (base : Word) (i j : Nat) : Nat := wrapAW s.params (s.unitStart base i j)

/-- `AC(i,j)` of the packed-YUV strategy (R35). -/
def State.cAddr (s : State) (base : Word) (i j : Nat) : Nat := wrapAW s.params (s.unitStart base i j + 1)

/-- `AR(i,j)` of the packed-RGB strategy (R35). -/
def State.rAddr (s : State) (base : Word) (i j : Nat) : Nat :=
  wrapAW s.params (s.unitStart base i j + s.geom.offR.toNat)

/-- `AG(i,j)` of the packed-RGB strategy (R35). -/
def State.gAddr (s : State) (base : Word) (i j : Nat) : Nat :=
  wrapAW s.params (s.unitStart base i j + s.geom.offG.toNat)

/-- `AB(i,j)` of the packed-RGB strategy (R35). -/
def State.bAddr (s : State) (base : Word) (i j : Nat) : Nat :=
  wrapAW s.params (s.unitStart base i j + s.geom.offB.toNat)

/-- The bytes one unit has read so far: `x` (R91), `x, y` (R92) or `r, g, b` (R109). They live inside one command
(10_state.md R19). -/
structure Pixel where
  x : Byte
  y : Byte
  z : Byte
  deriving DecidableEq, Repr

/-- Which of the unit's bytes a read fills. -/
inductive Sample where
  | x
  | y
  | z
  deriving DecidableEq, Repr

/-- What a write stores. -/
inductive Source where
  /-- `LUMA[x]`. -/
  | lumaX
  /-- `CHROMA[y]`. -/
  | chromaY
  /-- `r'` of `RGBPixel(x, y, z)`. -/
  | red
  /-- `g'` of `RGBPixel(x, y, z)`. -/
  | green
  /-- `b'` of `RGBPixel(x, y, z)`. -/
  | blue
  deriving DecidableEq, Repr

/-- One access a strategy issues: a byte read into a sample, or a byte written from a source. -/
inductive Access where
  | read (c : Sample) (addr : Nat)
  | write (v : Source) (addr : Nat)
  deriving DecidableEq, Repr

/-- The event the memory master port records for an access (R7, R36). -/
def Access.event : Access → BusEvent
  | .read _ a => ⟨.read, a⟩
  | .write _ a => ⟨.write, a⟩

/-- The unit's bytes after a read. -/
def Pixel.fill (px : Pixel) (c : Sample) (b : Byte) : Pixel :=
  match c with
  | .x => { px with x := b }
  | .y => { px with y := b }
  | .z => { px with z := b }

/-- The byte a write stores, from the bytes the unit has read and the tables and coefficient sets of the state. -/
def State.sourceByte (s : State) (px : Pixel) : Source → Byte
  | .lumaX => lookup s.luma px.x
  | .chromaY => lookup s.chroma px.y
  | .red => (rgbPixel s.params s.luma px.x px.y px.z).1
  | .green => (rgbPixel s.params s.luma px.x px.y px.z).2.1
  | .blue => (rgbPixel s.params s.luma px.x px.y px.z).2.2

/-- The accesses of one unit, in order: planar one byte read then written (R91); packed YUV luma read and write, then
chroma read and write (R92); packed RGB the three reads, then the three writes (R109). -/
def State.unitAccesses (s : State) (base : Word) (i j : Nat) : List Access :=
  match s.mode with
  | .unconfigured => []
  | .planar => [.read .x (s.planarAddr base i j), .write .lumaX (s.planarAddr base i j)]
  | .packedYUV =>
    [.read .x (s.yAddr base i j), .write .lumaX (s.yAddr base i j),
      .read .y (s.cAddr base i j), .write .chromaY (s.cAddr base i j)]
  | .packedRGB =>
    [.read .x (s.rAddr base i j), .read .y (s.gAddr base i j), .read .z (s.bAddr base i j),
      .write .red (s.rAddr base i j), .write .green (s.gAddr base i j), .write .blue (s.bAddr base i j)]

/-- The addresses of one unit, each once (R35, R40). -/
def State.unitFootprint (s : State) (base : Word) (i j : Nat) : List Nat :=
  match s.mode with
  | .unconfigured => []
  | .planar => [s.planarAddr base i j]
  | .packedYUV => [s.yAddr base i j, s.cAddr base i j]
  | .packedRGB => [s.rAddr base i j, s.gAddr base i j, s.bAddr base i j]

/-- The units of a frame in the order of the loops: rows rising, units rising within a row (R36). -/
def State.units (s : State) : List (Nat × Nat) :=
  (List.range s.geom.height.toNat).flatMap fun i => (List.range s.geom.width.toNat).map fun j => (i, j)

/-- The access sequence of a whole `PROCESS` (R36). -/
def State.frameAccesses (s : State) (base : Word) : List Access :=
  s.units.flatMap fun u => s.unitAccesses base u.1 u.2

/-- The footprint of a `PROCESS` as the list of R40, one entry for each address of each unit. -/
def State.footprint (s : State) (base : Word) : List Nat :=
  s.units.flatMap fun u => s.unitFootprint base u.1 u.2

/-- `GeomDisjoint` (R40): the footprint has no repeated entry. -/
abbrev State.geomDisjoint (s : State) (base : Word) : Prop := (s.footprint base).Nodup

/-- Every byte of the footprint is provided by the frame memory (R39 (b)). -/
abbrev State.frameProvided (s : State) (base : Word) : Prop :=
  ∀ a ∈ s.footprint base, (Memory.read s.mem a).isSome = true

/-- The bytes the packet `p` makes the block's when it executes in `s` (R38): the footprint of a `PROCESS` that runs. A
packet that faults or is no `PROCESS` touches no byte (R30, R123, R124). -/
def State.claimOf (s : State) (p : Packet) : List Nat :=
  if s.fault then []
  else
    match decodePacket p with
    | .error _ => []
    | .ok (.setparam _) => []
    | .ok .getparam => []
    | .ok (.configure _) => []
    | .ok (.process base) => if s.notConfigured then [] else s.footprint base

/-- The first byte of the footprint of `p`, the oldest packet waiting on port `k`, that a host has read or written since it
was sent (R38); none where the host kept its duty. -/
def State.raced (s : State) (k : Nat) (p : Packet) : Option Nat :=
  (s.claimOf p).find? fun a => (s.touchedSince k).contains a

/-- Port `k`'s oldest packet is taken: the command executes on behalf of port `k` (R21, R23), and its footprint is the
block's until the response is collected (R38). -/
def State.accept (s : State) (k : Nat) : State :=
  { s with
    ports := s.ports.modify k Port.served
    ledger := s.ledger.modify k fun l => l.taken (((s.front k).map s.claimOf).getD [])
    port := k
    taken := s.taken + 1 }

/-- One access completed (R36), on the bytes the unit has read and the memory: a read has its byte, a write is in memory,
and a read of a byte that is not provided has no completion (R39 (b), U17). Tables and coefficient sets are those of `s`
(10_state.md R22, 42_process_frame.md R94). -/
def State.access (s : State) (a : Access) (px : Pixel) (m : Memory) : Except Nat (Pixel × Memory) :=
  match a with
  | .read c addr =>
    match Memory.read m addr with
    | none => .error addr
    | some b => .ok (px.fill c b, m)
  | .write v addr => .ok (px, Memory.write m addr (s.sourceByte px v))

/-- Accesses made one after another, each complete before the next (R36): what they leave, or the address of the first
byte that is not provided. -/
def State.runAccesses (s : State) : List Access → Pixel → Memory → Except Nat (Pixel × Memory)
  | [], px, m => .ok (px, m)
  | a :: rest, px, m =>
    match s.access a px m with
    | .error addr => .error addr
    | .ok pm => s.runAccesses rest pm.1 pm.2

/-- No byte read yet: every unit reads each of its bytes before it writes, so this start is never seen. -/
def Pixel.blank : Pixel := ⟨0#8, 0#8, 0#8⟩

/-- The state after the accesses of a list have been made, with their events recorded (R7, R36); stuck where a byte is
not provided. -/
def State.makeAccesses (s : State) (accesses : List Access) : Except Nat State :=
  match s.runAccesses accesses Pixel.blank s.mem with
  | .ok pm => .ok { s with mem := pm.2, busLog := s.busLog ++ accesses.map Access.event }
  | .error a => .error a

end Sys2Proof.Machine
end

