-- ==== Sys2Proof/Machine/FormatDispatcher.lean ====
section
/-! DEFINITION. The meaning of `CONFIGURE` (41_format_dispatcher.md R81). -/

namespace Sys2Proof.Machine

/-- `CONFIGURE d` (R81). -/
def execConfigure (d : Descriptor) (s : State) : Host.Outcome State Fault Refusal :=
  match selectStrategy d.layout with
  | none => .next (s.raiseUnsupportedFormat d.layout)
  | some m => .next ({ s with mode := m, geom := d.geom, cfgerr := false }.respond .ok 0#32)

end Sys2Proof.Machine
end

