-- ==== Sys2Proof/Machine/ProcessFrame.lean ====
section
/-! DEFINITION. The meaning of `PROCESS` (42_process_frame.md R90), over the access sequences of Operands.lean. -/

namespace Sys2Proof.Machine

/-- `PROCESS base` (R90): the fault when no configuration is in force, before any access; else the accesses of the
strategy of `MODE` and the response. -/
def execProcess (base : Word) (s : State) : Host.Outcome State Fault Refusal :=
  if s.notConfigured then .next (s.raiseFault .notConfigured)
  else
    match s.makeAccesses (s.frameAccesses base) with
    | .ok t => .next (t.respond .ok 0#32)
    | .error a => .fault (.memoryNotProvided a)

end Sys2Proof.Machine
end

