-- ==== Sys2Proof/Machine/TableGenerator.lean ====
section
/-! DEFINITION. The meanings of `SETPARAM` and `GETPARAM` (40_table_generator.md R74, R75). -/

namespace Sys2Proof.Machine

/-- `SETPARAM v` (R74). -/
def execSetparam (v : Word) (s : State) : Host.Outcome State Fault Refusal :=
  if paramLegal v then .next (({ s with param := v }.buildTables v).respond .ok 0#32)
  else .next (s.raiseFault .paramRange)

/-- `GETPARAM` (R75). -/
def execGetparam (s : State) : Host.Outcome State Fault Refusal :=
  .next (s.respond .ok s.param)

end Sys2Proof.Machine
end

