-- ==== Sys2Proof/Machine/Dispatch.lean ====
section
/-! DEFINITION. exec: one arm for each command of 30_encoding.md R53. It is the part of 10_state.md R23 that follows a
successful Decode with FAULT = 0; Machine/Engine.lean has the part before it. -/

namespace Sys2Proof.Machine

def exec (i : Instr) (s : State) : Host.Outcome State Fault Refusal :=
  match i with
  | .setparam v => Sys2Proof.Machine.execSetparam v s
  | .getparam => Sys2Proof.Machine.execGetparam s
  | .configure d => Sys2Proof.Machine.execConfigure d s
  | .process base => Sys2Proof.Machine.execProcess base s

end Sys2Proof.Machine
end

