-- ==== Sys2Proof/Machine/Engine.lean ====
section
/-! DEFINITION. The execution step of 10_state.md R23 for one packet, the order of checks of 60_exceptions.md R125, a
command cut short by reset (70_reset_and_hazards.md R142), and the events of the outside. -/

namespace Sys2Proof.Machine

/-- R23 for the packet `p`, already taken from port `s.port`: the faulted answer first, then Decode, then the command
(R125). -/
def runPacket (p : Packet) (s : State) : Host.Outcome State Fault Refusal :=
  if s.fault then .next s.answerFaulted
  else
    match decodePacket p with
    | .error _ => .next (s.raiseFault .illegalCommand)
    | .ok i => exec i s

/-- The block takes the oldest packet of port `k` and executes it (R21, R23). Where none waits nothing is taken
(notes/assumptions/5.md), and where a host has touched its footprint since sending it the run has no meaning (R38). -/
def takeFrom (k : Nat) (s : State) : Host.Outcome State Fault Refusal :=
  match s.front k with
  | none => .next s
  | some p =>
    match s.raced k p with
    | some a => .fault (.frameRace a)
    | none => runPacket p (s.accept k)

/-- Reset while `i` executes, after `n` of its accesses (R142): the first `n` accesses of a `PROCESS` that would have run
are made, no response is given, and the state becomes the reset state. The other commands make no access (R30). -/
def abandon (n : Nat) (i : Instr) (s : State) : Host.Outcome State Fault Refusal :=
  match i with
  | .setparam _ => .next s.applyReset
  | .getparam => .next s.applyReset
  | .configure _ => .next s.applyReset
  | .process base =>
    if s.notConfigured then .next s.applyReset
    else
      match s.makeAccesses ((s.frameAccesses base).take n) with
      | .ok t => .next t.applyReset
      | .error a => .fault (.memoryNotProvided a)

/-- The packet `p`, already taken, is cut short by reset after `n` accesses (R142). -/
def cutPacket (n : Nat) (p : Packet) (s : State) : Host.Outcome State Fault Refusal :=
  if s.fault then .next s.applyReset
  else
    match decodePacket p with
    | .error _ => .next s.applyReset
    | .ok i => abandon n i s

/-- The block takes the oldest packet of port `k` and reset cuts it short after `n` accesses (R142); where none waits,
reset comes between commands (R140). -/
def cutFrom (k n : Nat) (s : State) : Host.Outcome State Fault Refusal :=
  match s.front k with
  | none => .next s.applyReset
  | some p =>
    match s.raced k p with
    | some a => .fault (.frameRace a)
    | none => cutPacket n p (s.accept k)

/-- A host reads or writes one byte of frame memory between commands, anywhere in the address space but in a footprint
that is the block's (R38, notes/assumptions/10.md). -/
def hostAccess (addr : Nat) (s : State) : Host.Outcome State Fault Refusal :=
  if 2 ^ s.params.aw ≤ addr then .fault (.outsideFrameMemory addr)
  else if s.owns addr then .fault (.frameRace addr)
  else .next (s.noteAccess addr)

/-- A host writes one byte of frame memory between commands (R38). -/
def hostStore (addr : Nat) (v : Byte) (s : State) : Host.Outcome State Fault Refusal :=
  hostAccess addr { s with mem := Memory.write s.mem addr v }

/-- What one event does. -/
def perform (e : Event) (s : State) : Host.Outcome State Fault Refusal :=
  match e with
  | .take k => takeFrom k s
  | .send k p => .next (s.send k p)
  | .collect k => .next (s.collect k)
  | .reset => .next s.applyReset
  | .cut k n => cutFrom k n s
  | .store addr v => hostStore addr v s
  | .load addr => hostAccess addr s

/-- The block on its own: it serves a waiting port, or waits for the first packet (R21, R24, 60_exceptions.md R134). -/
def serve (s : State) : Host.Outcome State Fault Refusal :=
  match s.arbitrate with
  | none => .next s
  | some k => takeFrom k s

/-- A port list with a packet put at the head of its first port's queue, with a first port if there was none. -/
def withPacketFirst (p : Packet) : List Port → List Port
  | [] => [⟨[p], []⟩]
  | q :: qs => { q with packets := p :: q.packets } :: qs

/-- The ledgers with a packet put at the head of the first port's queue, no byte touched since. -/
def withLedgerFirst : List Ledger → List Ledger
  | [] => [⟨[[]], []⟩]
  | l :: ls => { l with touched := [] :: l.touched } :: ls

end Sys2Proof.Machine
end

