-- ==== Sys2Proof/Machine/Step.lean ====
section
/-! DEFINITION. One step of the machine (10_state.md R23) and the host's placement of a command. -/

namespace Sys2Proof.Machine

/-- One step: the next event of `env` if there is one, else the block serves a port (R21, R23). -/
def step (s : State) : Host.Outcome State Fault Refusal :=
  match s.env with
  | [] => serve s
  | e :: rest => perform e { s with env := rest }

/-- `s` with the packet of `packetOfBits nbits w` next in line: it is put at the head of port 0's queue and the next
event takes from port 0, whatever else is waiting, so that the next step runs it. A block that has faulted still answers
FAULT (R124): no placement of a packet changes that (notes/assumptions/12.md). -/
def State.withFetchWord (s : State) (nbits w : Nat) : State :=
  { s with
    ports := withPacketFirst (packetOfBits nbits w) s.ports
    ledger := withLedgerFirst s.ledger
    env := .take 0 :: s.env }

end Sys2Proof.Machine
end

