-- ==== Sys2Proof/Machine/Assembler.lean ====
section
/-! DEFINITION. The assembler syntax of 30_encoding.md R59 and the pseudo-commands of R60: source text, as characters, to
packets and the port they go to. -/

namespace Sys2Proof.Machine

/-- The core command a pseudo-command expands to (R60); a core command is itself. -/
def expand : SourceCommand → SourceCommand
  | .setparam value => .setparam value
  | .getparam => .getparam
  | .configure layout width height stride pstride offr offg offb =>
    .configure layout width height stride pstride offr offg offb
  | .process base => .process base
  | .configurePlanar width height stride => .configure 1 width height stride 1 0 0 0
  | .configureYuv width height stride pstride => .configure 2 width height stride pstride 0 0 0
  | .configureRgb width height stride pstride offr offg offb => .configure 3 width height stride pstride offr offg offb
  | .setparamDefault => .setparam 0x3F800000

/-- The command of a source command whose operands are in range (R59). -/
def sourceInstr (c : SourceCommand) : Option Instr :=
  match expand c with
  | .setparam value => some (.setparam (BitVec.ofNat 32 value))
  | .getparam => some .getparam
  | .configure layout width height stride pstride offr offg offb =>
    some (.configure
      { layout := BitVec.ofNat 8 layout
        geom :=
          { width := BitVec.ofNat 16 width
            height := BitVec.ofNat 16 height
            stride := BitVec.ofNat 32 stride
            pstride := BitVec.ofNat 8 pstride
            offR := BitVec.ofNat 8 offr
            offG := BitVec.ofNat 8 offg
            offB := BitVec.ofNat 8 offb } })
  | .process base => some (.process (BitVec.ofNat 32 base))
  | .configurePlanar _ _ _ => none
  | .configureYuv _ _ _ _ => none
  | .configureRgb _ _ _ _ _ _ _ => none
  | .setparamDefault => none

/-- An assembler refuses a value outside its range; it does not truncate, and checks nothing else (R59). -/
def assemble (c : SourceCommand) : Option Packet :=
  if c.wellFormed then (sourceInstr c).map encode else none

/-- The value of one digit, the hexadecimal letters in either case. -/
def digitValue (c : Char) : Option Nat :=
  let n := c.toNat
  if 48 ≤ n ∧ n ≤ 57 then some (n - 48)
  else if 65 ≤ n ∧ n ≤ 70 then some (n - 55)
  else if 97 ≤ n ∧ n ≤ 102 then some (n - 87)
  else none

/-- The number a run of digits writes in a base, after the digits already read. -/
def digitsValue (base : Nat) : List Char → Nat → Option Nat
  | [], acc => some acc
  | c :: rest, acc =>
    match digitValue c with
    | none => none
    | some d => if d < base then digitsValue base rest (acc * base + d) else none

/-- A number: decimal, or hexadecimal after `0x` (R59). -/
def numberValue : List Char → Option Nat
  | '0' :: 'x' :: c :: rest => digitsValue 16 (c :: rest) 0
  | c :: rest => digitsValue 10 (c :: rest) 0
  | [] => none

/-- A character that separates the parts of a line (notes/assumptions/14.md). -/
def isBlank (c : Char) : Bool := c == ' ' || c == '\t' || c == '\r'

/-- Text without the blanks at its two ends. -/
def trimmed (l : List Char) : List Char := ((l.dropWhile isBlank).reverse.dropWhile isBlank).reverse

/-- Text cut at its commas. -/
def commaParts : List Char → List (List Char)
  | [] => [[]]
  | c :: rest =>
    if c = ',' then [] :: commaParts rest
    else
      match commaParts rest with
      | [] => [[c]]
      | part :: parts => (c :: part) :: parts

/-- The operands after a mnemonic: numbers between commas, none where nothing stands. -/
def operandValues (l : List Char) : Option (List Nat) :=
  if l = [] then some [] else (commaParts l).mapM fun part => numberValue (trimmed part)

/-- The commands of R59 and R60 by mnemonic and operands. -/
def commandOf (mnemonic : List Char) (operands : List Nat) : Option SourceCommand :=
  if mnemonic = ['S', 'E', 'T', 'P', 'A', 'R', 'A', 'M'] then
    match operands with
    | [v] => some (.setparam v)
    | _ => none
  else if mnemonic = ['G', 'E', 'T', 'P', 'A', 'R', 'A', 'M'] then
    match operands with
    | [] => some .getparam
    | _ => none
  else if mnemonic = ['C', 'O', 'N', 'F', 'I', 'G', 'U', 'R', 'E'] then
    match operands with
    | [l, w, h, s, p, r, g, b] => some (.configure l w h s p r g b)
    | _ => none
  else if mnemonic = ['P', 'R', 'O', 'C', 'E', 'S', 'S'] then
    match operands with
    | [base] => some (.process base)
    | _ => none
  else if mnemonic = ['C', 'O', 'N', 'F', 'I', 'G', 'U', 'R', 'E', '.', 'P', 'L', 'A', 'N', 'A', 'R'] then
    match operands with
    | [w, h, s] => some (.configurePlanar w h s)
    | _ => none
  else if mnemonic = ['C', 'O', 'N', 'F', 'I', 'G', 'U', 'R', 'E', '.', 'Y', 'U', 'V'] then
    match operands with
    | [w, h, s, p] => some (.configureYuv w h s p)
    | _ => none
  else if mnemonic = ['C', 'O', 'N', 'F', 'I', 'G', 'U', 'R', 'E', '.', 'R', 'G', 'B'] then
    match operands with
    | [w, h, s, p, r, g, b] => some (.configureRgb w h s p r g b)
    | _ => none
  else if mnemonic = ['S', 'E', 'T', 'P', 'A', 'R', 'A', 'M', '.', 'D', 'E', 'F', 'A', 'U', 'L', 'T'] then
    match operands with
    | [] => some .setparamDefault
    | _ => none
  else none

/-- The port a line names and the rest of it: `p0:`, `p1:`, default `p0:` (R59). -/
def portPrefix : List Char → Nat × List Char
  | 'p' :: '0' :: ':' :: rest => (0, rest)
  | 'p' :: '1' :: ':' :: rest => (1, rest)
  | l => (0, l)

/-- One line without its comment: nothing, or a command for a port; no value where it is neither (R59). -/
def parseLine (line : List Char) : Option (Option SourceLine) :=
  let body := portPrefix (trimmed (line.takeWhile fun c => c != ';'))
  let text := trimmed body.2
  if text = [] then some none
  else
    let mnemonic := text.takeWhile fun c => !isBlank c
    match operandValues (trimmed (text.drop mnemonic.length)) with
    | none => none
    | some operands => (commandOf mnemonic operands).map fun c => some ⟨body.1, c⟩

/-- A program text, a line each: the packets and their ports in order (R59), or refused as a whole. -/
def assembleProgram : List (List Char) → Option (List (Nat × Packet))
  | [] => some []
  | line :: rest =>
    match parseLine line with
    | none => none
    | some none => assembleProgram rest
    | some (some l) =>
      match assemble l.command with
      | none => none
      | some p => (assembleProgram rest).map fun ps => (l.port, p) :: ps

/-- The hosts send the packets of a program, each on its port (R21). -/
def State.sendAll (s : State) (ps : List (Nat × Packet)) : State :=
  ps.foldl (fun t kp => t.send kp.1 kp.2) s

end Sys2Proof.Machine
end

