-- ==== Sys2Proof/Safety.lean ====
section
/-! DEFINITION. What counts as a safe run, the launch premises of 10_state.md R25 with the host duties of
70_reset_and_hazards.md R143 to R146, and the invariant of the state that every step keeps (R11, R12, R17, R24, 20_memory.md R30). -/

namespace Sys2Proof.Machine

/-- A state that has not gone wrong: claims take `FAULT = 0` at their start and ask it at their end
(60_exceptions.md R124). -/
abbrev State.good (s : State) : Prop := s.fault = false

/-- The tables hold the formula values (R12, R25 (c)). -/
abbrev State.tablesBuilt (s : State) : Prop := s.luma = lumaTable ∧ s.chroma = chromaTable

/-- `FCODE` is 0 while `FAULT = 0` and a cause code once `FAULT = 1` (R17). -/
abbrev State.faultRecorded (s : State) : Prop := s.fault = false ↔ s.fcode = 0#2

/-- Until a `CONFIGURE` succeeds the geometry holds its reset values (R13, R14, R24). -/
abbrev State.geometryUnset (s : State) : Prop := s.mode = Mode.unconfigured → s.geom = geometryZero

/-- Every packet waiting and every response not collected has its entry in its port's ledger (20_memory.md R38). -/
abbrev State.ledgerMatches (s : State) : Prop :=
  s.ledger.map (fun l => (l.touched.length, l.owned.length)) =
    s.ports.map fun q => (q.packets.length, q.responses.length)

/-- The invariant of the whole machine: a legal `PARAM` (R11), built tables (R12), `FAULT` and `FCODE` in step (R17),
geometry only from a `CONFIGURE` (R14), `NPORT` ports (R5, R20), a ledger that matches them (R38), and memory in canonical form inside the address space
(R30). -/
structure State.Inv (s : State) : Prop where
  paramLegal : paramLegal s.param = true
  tables : s.tablesBuilt
  faultRecorded : s.faultRecorded
  geometry : s.geometryUnset
  portCount : s.ports.length = s.params.nport
  ledger : s.ledgerMatches
  memWf : Memory.wf s.mem
  memInSpace : Memory.inSpace s.mem s.params.aw

/-- The `i`-th packet waiting on port `k`, the oldest being the 0th. -/
def State.packetAt (s : State) (k i : Nat) : Option Packet := (s.ports[k]?).bind fun q => q.packets[i]?

/-- The addresses hosts have touched since the `i`-th packet waiting on port `k` was sent. -/
def State.touchedAt (s : State) (k i : Nat) : Option (List Nat) := (s.ledger[k]?).bind fun l => l.touched[i]?

/-- The host duties of 70_reset_and_hazards.md R143 to R146 about the packets sent already: for every `PROCESS` waiting, a
successful `CONFIGURE` is in force (R143 (3), R144), the frame is in memory at its `BASE` (R143 (4)), no `CONFIGURE` can
come before it, for none waits but behind it on its own port (R144, R145), and no host has touched its frame since it was
sent (R146). -/
structure State.WaitingDutiful (s : State) : Prop where
  configured : ∀ k i p base, s.packetAt k i = some p → decodePacket p = .ok (.process base) → s.notConfigured = false
  provided : ∀ k i p base, s.packetAt k i = some p → decodePacket p = .ok (.process base) → s.frameProvided base
  ordered : ∀ k i p base k' i' p' d, s.packetAt k i = some p → decodePacket p = .ok (.process base) →
    s.packetAt k' i' = some p' → decodePacket p' = .ok (.configure d) → k' = k ∧ i < i'
  untouched : ∀ k i p base since, s.packetAt k i = some p → decodePacket p = .ok (.process base) →
    s.touchedAt k i = some since → ∀ a ∈ s.footprint base, a ∉ since

/-- What the hosts know they have sent: for each port, the packets whose responses have not been collected, oldest
first. -/
abbrev Outstanding := List (List Packet)

/-- No packet of the list is a `CONFIGURE`. -/
abbrev noConfigure (ps : List Packet) : Prop := ∀ p ∈ ps, ∀ d, decodePacket p ≠ .ok (.configure d)

/-- No packet of the list is a `PROCESS`. -/
abbrev noProcess (ps : List Packet) : Prop := ∀ p ∈ ps, ∀ base, decodePacket p ≠ .ok (.process base)

/-- The byte is in frame memory and in the footprint of no `PROCESS` sent whose response its host has not got (R38,
R146). -/
structure State.HostMayTouch (s : State) (addr : Nat) : Prop where
  inSpace : addr < 2 ^ s.params.aw
  notOwned : s.owns addr = false
  notWaiting : ∀ k i p base, s.packetAt k i = some p → decodePacket p = .ok (.process base) → addr ∉ s.footprint base

/-- The duty of a host about a packet it sends on port `k`. A `PROCESS`: a `CONFIGURE` was answered `OK` and is in force,
the answer of every `CONFIGURE` sent has been seen, on whatever port (R143 (3), R144), and the frame is in memory at its
`BASE` (R143 (4)). A `CONFIGURE`: no `PROCESS` sent on another port is unanswered, for it might be taken after this
packet (R145). -/
def State.MaySend (s : State) (sent : Outstanding) (k : Nat) (p : Packet) : Prop :=
  match decodePacket p with
  | .error _ => True
  | .ok (.setparam _) => True
  | .ok .getparam => True
  | .ok (.configure _) => ∀ k' ps, sent[k']? = some ps → k' ≠ k → noProcess ps
  | .ok (.process base) => s.notConfigured = false ∧ s.frameProvided base ∧ ∀ ps ∈ sent, noConfigure ps

/-- The duty of the hosts about one event. What the block or the reset input does is no host's duty. -/
def State.Allows (s : State) (sent : Outstanding) : Event → Prop
  | .take _ => True
  | .send k p => s.MaySend sent k p
  | .collect _ => True
  | .reset => True
  | .cut _ _ => True
  | .store addr _ => s.HostMayTouch addr
  | .load addr => s.HostMayTouch addr

/-- What is outstanding after an event: a packet sent is, a response collected ends it, and after reset none is owed
(70_reset_and_hazards.md R140, R142). -/
def State.outstandingAfter (s : State) (sent : Outstanding) : Event → Outstanding
  | .take _ => sent
  | .send k p => sent.modify k fun ps => ps ++ [p]
  | .collect k => if (s.ports[k]?).any fun q => !q.responses.isEmpty then sent.modify k List.tail else sent
  | .reset => List.replicate s.params.nport []
  | .cut _ _ => List.replicate s.params.nport []
  | .store _ _ => sent
  | .load _ => sent

/-- The host duties of R143 to R146 along the events to come, each held to the state it finds. -/
def HostsKeepDuties : List Event → Outstanding → State → Prop
  | [], _, _ => True
  | e :: rest, sent, s =>
    s.Allows sent e ∧
      match step s with
      | .next t => HostsKeepDuties rest (s.outstandingAfter sent e) t
      | .fault _ => True
      | .refused _ => True

/-- The launch premises of R25, with the list of packets waiting on each port given, an empty list for each where the
ports are empty (`State.LaunchEmpty`). (b) says that no command is in flight, which is so between steps, and that no
response is owed (R24). -/
structure State.Launch (s : State) (queues : List (List Packet)) : Prop where
  /-- (a) `FAULT = 0`. -/
  good : s.good
  /-- (b) The packets waiting on each port, and nothing else. -/
  ports : s.ports = queues.map fun ps => ⟨ps, []⟩
  /-- (c) The tables hold the formula values. -/
  tables : s.tablesBuilt
  /-- (d) `PARAM` is legal. -/
  paramLegal : paramLegal s.param = true
  /-- (e) Since the packets were sent no host has touched memory, and no frame is still to be given back (R146). -/
  ledger : s.ledger = queues.map fun ps => ⟨ps.map fun _ => [], []⟩
  /-- (e) The hosts kept their duties about the packets waiting (R143 to R146). -/
  waiting : s.WaitingDutiful
  /-- (e) The hosts keep their duties in everything they do from here (R143 to R146). -/
  hosts : HostsKeepDuties s.env queues s

/-- The launch premises of R25 with the ports empty: no packet waiting and no response owed. -/
abbrev State.LaunchEmpty (s : State) : Prop := s.Launch (s.ports.map fun _ => [])

/-- The packet the next step takes, with the state it is executed in: the port is the one an event `.take` or `.cut`
names, else the arbiter's. None when the next step takes no packet. -/
def State.nextPacket (s : State) : Option (Packet × State) :=
  match s.env with
  | [] => (s.arbitrate).bind fun k => (s.front k).map fun p => (p, s.accept k)
  | .take k :: rest => ({ s with env := rest }.front k).map fun p => (p, { s with env := rest }.accept k)
  | .cut k _ :: rest => ({ s with env := rest }.front k).map fun p => (p, { s with env := rest }.accept k)
  | .send _ _ :: _ => none
  | .collect _ :: _ => none
  | .reset :: _ => none
  | .store _ _ :: _ => none
  | .load _ :: _ => none

/-- The next step asserts reset (70_reset_and_hazards.md R140, R142). -/
def State.resetNext (s : State) : Bool :=
  match s.env with
  | .reset :: _ => true
  | .cut _ _ :: _ => true
  | [] => false
  | .take _ :: _ => false
  | .send _ _ :: _ => false
  | .collect _ :: _ => false
  | .store _ _ :: _ => false
  | .load _ :: _ => false

/-- The byte a host writes in the next step, with its address (20_memory.md R38). -/
def State.hostWrites (s : State) : Option (Nat × Byte) :=
  match s.env with
  | .store addr v :: _ => some (addr, v)
  | [] => none
  | .take _ :: _ => none
  | .send _ _ :: _ => none
  | .collect _ :: _ => none
  | .reset :: _ => none
  | .cut _ _ :: _ => none
  | .load _ :: _ => none

end Sys2Proof.Machine
end

