-- ==== Sys2Proof/Certificates/Slice0/Obligations.lean ====
section
/-! DEFINITION. The statements for the provers, each citing the rules of spec/ it formalises, and above them the
transcriptions of the spec's pseudocode that some of them compare the machine with. -/

open Sys2Proof Sys2Proof.Machine

namespace Sys2Proof.Reference

/-- `for k in i .. i+n-1: body` over the memory; none once an access finds no byte provided. -/
def forFrom (body : Nat → Memory → Option Memory) : Nat → Nat → Memory → Option Memory
  | 0, _, m => some m
  | n + 1, i, m =>
    match body i m with
    | none => none
    | some m' => forFrom body n (i + 1) m'

/-- `for k in 0 .. n-1: body`. -/
def forEach (n : Nat) (body : Nat → Memory → Option Memory) (m : Memory) : Option Memory := forFrom body n 0 m

/-- The pseudocode of `PlanarTransform(base)` (R91). -/
def planarTransform (s : State) (base : Word) (m : Memory) : Option Memory :=
  forEach s.geom.height.toNat (fun i =>
    forEach s.geom.width.toNat fun j m =>
      let a := (base.toNat + i * s.geom.stride.toNat + j) % 2 ^ s.params.aw
      (Memory.read m a).map fun x => Memory.write m a (lookup s.luma x)) m

/-- The pseudocode of `PackedYUVTransform(base)` (R92). -/
def packedYUVTransform (s : State) (base : Word) (m : Memory) : Option Memory :=
  forEach s.geom.height.toNat (fun i =>
    forEach s.geom.width.toNat fun j m =>
      let p := base.toNat + i * s.geom.stride.toNat + j * s.geom.pstride.toNat
      (Memory.read m (p % 2 ^ s.params.aw)).bind fun x =>
        let m1 := Memory.write m (p % 2 ^ s.params.aw) (lookup s.luma x)
        (Memory.read m1 ((p + 1) % 2 ^ s.params.aw)).map fun y =>
          Memory.write m1 ((p + 1) % 2 ^ s.params.aw) (lookup s.chroma y)) m

/-- A row of a coefficient set applied, `>> 8` as division rounding toward minus infinity (R106). -/
def row (c : CoefRow) (v1 v2 v3 : Int) : Int := (c.c0 * v1 + c.c1 * v2 + c.c2 * v3 + c.c3) / 256

/-- The clamp of R107 as a number. -/
def clampNat (x : Int) : Nat := (min 255 (max 0 x)).toNat

/-- `Clamp8` (R107) as a byte. -/
def clamp (x : Int) : Byte := BitVec.ofNat 8 (clampNat x)

/-- The pseudocode of `RGBPixel(r, g, b)` (R109). -/
def pixel (s : State) (r g b : Byte) : Byte × Byte × Byte :=
  let Y := row s.params.coefFwd.row0 r.toNat g.toNat b.toNat
  let Cb := row s.params.coefFwd.row1 r.toNat g.toNat b.toNat
  let Cr := row s.params.coefFwd.row2 r.toNat g.toNat b.toNat
  let Y2 : Byte := lookup s.luma (clamp Y)
  (clamp (row s.params.coefInv.row0 Y2.toNat Cb Cr), clamp (row s.params.coefInv.row1 Y2.toNat Cb Cr),
    clamp (row s.params.coefInv.row2 Y2.toNat Cb Cr))

/-- The pseudocode of `PackedRGBTransform(base)` (R109). -/
def packedRGBTransform (s : State) (base : Word) (m : Memory) : Option Memory :=
  forEach s.geom.height.toNat (fun i =>
    forEach s.geom.width.toNat fun j m =>
      let p := base.toNat + i * s.geom.stride.toNat + j * s.geom.pstride.toNat
      let ar := (p + s.geom.offR.toNat) % 2 ^ s.params.aw
      let ag := (p + s.geom.offG.toNat) % 2 ^ s.params.aw
      let ab := (p + s.geom.offB.toNat) % 2 ^ s.params.aw
      (Memory.read m ar).bind fun r =>
        (Memory.read m ag).bind fun g =>
          (Memory.read m ab).map fun b =>
            let q := pixel s r g b
            Memory.write (Memory.write (Memory.write m ar q.1) ag q.2.1) ab q.2.2) m

/-- The access events of a frame whose unit `(i, j)` has the events `unit i j`, rows rising, units rising within a row
(R36). -/
def frameEvents (s : State) (unit : Nat → Nat → List BusEvent) : List BusEvent :=
  (List.range s.geom.height.toNat).flatMap fun i => (List.range s.geom.width.toNat).flatMap fun j => unit i j

/-- The events of a planar frame, in order (R36, R91). -/
def planarEvents (s : State) (base : Word) : List BusEvent :=
  frameEvents s fun i j =>
    let a := (base.toNat + i * s.geom.stride.toNat + j) % 2 ^ s.params.aw
    [⟨.read, a⟩, ⟨.write, a⟩]

/-- The events of a packed-YUV frame, in order (R36, R92). -/
def packedYUVEvents (s : State) (base : Word) : List BusEvent :=
  frameEvents s fun i j =>
    let p := base.toNat + i * s.geom.stride.toNat + j * s.geom.pstride.toNat
    [⟨.read, p % 2 ^ s.params.aw⟩, ⟨.write, p % 2 ^ s.params.aw⟩,
      ⟨.read, (p + 1) % 2 ^ s.params.aw⟩, ⟨.write, (p + 1) % 2 ^ s.params.aw⟩]

/-- The events of a packed-RGB frame, in order (R36, R109). -/
def packedRGBEvents (s : State) (base : Word) : List BusEvent :=
  frameEvents s fun i j =>
    let p := base.toNat + i * s.geom.stride.toNat + j * s.geom.pstride.toNat
    let ar := (p + s.geom.offR.toNat) % 2 ^ s.params.aw
    let ag := (p + s.geom.offG.toNat) % 2 ^ s.params.aw
    let ab := (p + s.geom.offB.toNat) % 2 ^ s.params.aw
    [⟨.read, ar⟩, ⟨.read, ag⟩, ⟨.read, ab⟩, ⟨.write, ar⟩, ⟨.write, ag⟩, ⟨.write, ab⟩]

/-- The ports after one more response on port `s.port` (R57). -/
def answered (s : State) (rc : RCode) (data : Word) : List Port :=
  s.ports.modify s.port fun q => { q with responses := q.responses ++ [⟨rc, data⟩] }

/-- What R91, R92 and R109 say of a frame: the memory and the events of the pseudocode and one `OK`, or no step where the
pseudocode finds a byte that is not provided (R39 (b)). -/
def runsAs (s : State) (base : Word) (after : Option Memory) (events : List BusEvent) : Prop :=
  match after with
  | some m =>
    exec (.process base) s =
      .next { s with mem := m, busLog := s.busLog ++ events, ports := answered s .ok 0#32 }
  | none => ∃ a, exec (.process base) s = .fault (.memoryNotProvided a)

/-- The memory of a next state. -/
def memoryAfter : Host.Outcome State Fault Refusal → Option Memory
  | .next t => some t.mem
  | .fault _ => none
  | .refused _ => none

/-- An outcome with `PARAM` of its next state replaced. -/
def withParam (p : Word) : Host.Outcome State Fault Refusal → Host.Outcome State Fault Refusal
  | .next t => .next { t with param := p }
  | .fault f => .fault f
  | .refused r => .refused r

/-- `Decode` by the length and header match of R53, its fields by division and remainder (R6, R52, R56). -/
def decode : Packet → Option Instr
  | [h] => if h.toNat = 0x20000000 then some .getparam else none
  | [h, v] =>
    if h.toNat = 0x10000000 then some (.setparam v) else if h.toNat = 0x40000000 then some (.process v) else none
  | [h, p1, p2, p3] =>
    if h.toNat / 256 = 0x300000 then
      some (.configure
        { layout := BitVec.ofNat 8 (h.toNat % 256)
          geom :=
            { width := BitVec.ofNat 16 (p1.toNat % 65536)
              height := BitVec.ofNat 16 (p1.toNat / 65536)
              stride := p2
              pstride := BitVec.ofNat 8 (p3.toNat % 256)
              offR := BitVec.ofNat 8 (p3.toNat / 256 % 256)
              offG := BitVec.ofNat 8 (p3.toNat / 65536 % 256)
              offB := BitVec.ofNat 8 (p3.toNat / 16777216) } })
    else none
  | _ => none

/-- The next (`MODE`, `CFGERR`, `FAULT`) of a block that has not faulted, by the table of R82. -/
def configNext (s : State) : Instr → Mode × Bool × Bool
  | .setparam v => (s.mode, s.cfgerr, !paramLegal v)
  | .getparam => (s.mode, s.cfgerr, false)
  | .configure d =>
    if d.layout = 1#8 then (.planar, false, false)
    else if d.layout = 2#8 then (.packedYUV, false, false)
    else if d.layout = 3#8 then (.packedRGB, false, false)
    else (s.mode, true, false)
  | .process _ => (s.mode, s.cfgerr, s.mode == .unconfigured || s.cfgerr)

/-- The state of R24 over the frame memory, the parameters and the model's own fields that `s` has. -/
def resetOver (s : State) : State :=
  { s with
    param := 0x3F800000#32
    luma := lumaTable
    chroma := chromaTable
    mode := .unconfigured
    cfgerr := false
    geom := ⟨0#16, 0#16, 0#32, 0#8, 0#8, 0#8, 0#8⟩
    fault := false
    fcode := 0#2
    ports := List.replicate s.params.nport ⟨[], []⟩
    ledger := List.replicate s.params.nport ⟨[], []⟩
    port := 0 }

/-- `s` after port `k`'s oldest packet `p` was taken, the rest of its queue being `ps`: the command executes for port `k`,
and the frame it claims is the block's until its response is collected (R38). -/
def accepted (s : State) (k : Nat) (q : Port) (p : Packet) (ps : List Packet) : State :=
  { s with
    ports := s.ports.set k { q with packets := ps }
    ledger := s.ledger.modify k fun l => { touched := l.touched.tail, owned := l.owned ++ [s.claimOf p] }
    port := k
    taken := s.taken + 1 }

/-- R38: some byte of the frame that `p`, the oldest packet waiting on port `k`, would process was read or written by a
host since `p` was sent. -/
def HostRaces (s : State) (k : Nat) (p : Packet) : Prop :=
  s.fault = false ∧ s.mode ≠ .unconfigured ∧ s.cfgerr = false ∧
    ∃ base l since later, decodePacket p = .ok (.process base) ∧ s.ledger[k]? = some l ∧ l.touched = since :: later ∧
      ∃ a ∈ s.footprint base, a ∈ since

/-- The run stops because a host broke its duty about a frame (R38, U11). -/
def stopsRaced (o : Host.Outcome State Fault Refusal) : Prop := ∃ a, o = .fault (.frameRace a)

/-- The ledgers after a host read or wrote the byte at `a`. -/
def noted (s : State) (a : Nat) : List Ledger :=
  s.ledger.map fun l => { l with touched := l.touched.map fun since => a :: since }

/-- A frame of strategy `m` that `PROCESS base` can run: not faulted, configured, every byte of it provided. -/
structure Ready (s : State) (base : Word) (m : Mode) : Prop where
  good : s.fault = false
  mode : s.mode = m
  cfgerr : s.cfgerr = false
  provided : ∀ a ∈ s.footprint base, (Memory.read s.mem a).isSome = true

end Sys2Proof.Reference

open Sys2Proof.Reference

/-! ### Reset and the invariant -/

/-- R24: what reset leaves, in every state it is asserted in and in `State.reset`, whose block then waits. Two clauses
rest on the model's choices: that a response emitted and not collected is discarded (log entry 13), and that `State.reset`
has no event, so that its step waits (log entry 5). -/
def Obligations.ResetLeavesSpecValues : Prop :=
  (∀ s : State,
    let t := s.applyReset
    t.param = 0x3F800000#32 ∧
    (∀ n : Byte, (lookup t.luma n).toNat = lumaEntry n.toNat ∧ (lookup t.chroma n).toNat = chromaEntry n.toNat) ∧
    lookup t.luma 0#8 = 16#8 ∧ lookup t.luma 255#8 = 235#8 ∧ lookup t.chroma 0#8 = 16#8 ∧ lookup t.chroma 255#8 = 240#8 ∧
    t.mode = .unconfigured ∧ t.cfgerr = false ∧ t.geom = ⟨0#16, 0#16, 0#32, 0#8, 0#8, 0#8, 0#8⟩ ∧
    t.fault = false ∧ t.fcode = 0#2 ∧ t.ports = List.replicate s.params.nport ⟨[], []⟩ ∧ t.mem = s.mem) ∧
  State.reset.applyReset = State.reset ∧ step State.reset = .next State.reset

/-- R140, R141: the reset input between commands gives the values of R24 and leaves frame memory and the parameters. Three
clauses are the model's and no words of those rules: that an event `.cut` on a port where no packet waits is such a reset
(log entry 5), that `taken` and `busLog` pass through and a response not collected is discarded (log entry 13), and that the
ledgers are emptied (log entries 10 and 13). -/
def Obligations.ResetEventGivesResetState : Prop :=
  ∀ (s : State) (rest : List Event),
    (s.env = .reset :: rest ∨ ∃ k n, s.env = .cut k n :: rest ∧ s.front k = none) →
    step s = .next (resetOver { s with env := rest })

/-- The invariant and the launch premises of R25 with the ports empty hold at reset; the host duties of (e), in the form of
log entry 19, are kept by the empty list of events (log entry 5). -/
def Obligations.InvariantHoldsAtReset : Prop := State.reset.Inv ∧ State.reset.LaunchEmpty

/-- The invariant of R11, R12, R14, R17, R30, with the ledgers matching the ports (R38, log entry 10), is kept by every
step, from every state that meets it. -/
def Obligations.EveryStepKeepsInvariant : Prop := ∀ s t : State, s.Inv → step s = .next t → t.Inv

/-! ### The tables -/

/-- R70: the luma table is the rounded real-number formula, and its entries are bytes 16..235. -/
def Obligations.LumaTableIsRoundedFormula : Prop :=
  ∀ n : Byte,
    ((lookup lumaTable n).toNat : ℤ) = ⌊((n.toNat : ℚ) * (235 - 16) / 255 + 16) + 1 / 2⌋ ∧
    (lookup lumaTable n).toNat = (438 * n.toNat + 255) / 510 + 16 ∧
    16 ≤ (lookup lumaTable n).toNat ∧ (lookup lumaTable n).toNat ≤ 235

/-- R71: the chroma table is the rounded real-number formula, and its entries are bytes 16..240. -/
def Obligations.ChromaTableIsRoundedFormula : Prop :=
  ∀ n : Byte,
    ((lookup chromaTable n).toNat : ℤ) = ⌊((n.toNat : ℚ) * (240 - 16) / 255 + 16) + 1 / 2⌋ ∧
    (lookup chromaTable n).toNat = (448 * n.toNat + 255) / 510 + 16 ∧
    16 ≤ (lookup chromaTable n).toNat ∧ (lookup chromaTable n).toNat ≤ 240

/-- R76: both tables are monotone, onto their ranges, with exactly the fixed points listed. -/
def Obligations.TablesMonotoneOntoFixedPoints : Prop :=
  (∀ n k : Byte, n ≤ k → lookup lumaTable n ≤ lookup lumaTable k ∧ lookup chromaTable n ≤ lookup chromaTable k) ∧
  (∀ v : Byte, 16#8 ≤ v → v ≤ 235#8 → ∃ n, lookup lumaTable n = v) ∧
  (∀ v : Byte, 16#8 ≤ v → v ≤ 240#8 → ∃ n, lookup chromaTable n = v) ∧
  (∀ n : Byte, lookup lumaTable n = n ↔ 110#8 ≤ n ∧ n ≤ 116#8) ∧
  (∀ n : Byte, lookup chromaTable n = n ↔ 128#8 ≤ n ∧ n ≤ 135#8) ∧
  (∀ n : Byte, (n < 110#8 → n < lookup lumaTable n) ∧ (116#8 < n → lookup lumaTable n < n)) ∧
  (∀ n : Byte, (n < 128#8 → n < lookup chromaTable n) ∧ (135#8 < n → lookup chromaTable n < n)) ∧
  lookup lumaTable 128#8 = 126#8 ∧ lookup chromaTable 128#8 = 128#8

/-! ### SETPARAM and GETPARAM -/

/-- R74: `SETPARAM` by the legality of its pattern; every field not named is unchanged. -/
def Obligations.SetparamByLegality : Prop :=
  ∀ (v : Word) (s : State), s.fault = false →
    encode (.setparam v) = [0x10000000#32, v] ∧
    exec (.setparam v) s =
      if 0x3C23D70A ≤ v.toNat ∧ v.toNat ≤ 0x41200000 then
        .next { s with param := v, luma := lumaTable, chroma := chromaTable, ports := answered s .ok 0#32 }
      else .next { s with fault := true, fcode := 2#2, ports := answered s .fault 2#32 }

/-- R75: `GETPARAM` answers `PARAM` and changes nothing else. -/
def Obligations.GetparamAnswersParam : Prop :=
  ∀ s : State, s.fault = false →
    encode .getparam = [0x20000000#32] ∧ exec .getparam s = .next { s with ports := answered s .ok s.param }

/-- R74, R75: `GETPARAM` after a `SETPARAM` returns the value set, on the same port after the `OK`. -/
def Obligations.GetparamReturnsLastSetValue : Prop :=
  ∀ (v : Word) (s : State) (q : Port), s.fault = false → paramLegal v = true → s.ports[s.port]? = some q →
    ∃ t u, exec (.setparam v) s = .next t ∧ exec .getparam t = .next u ∧
      u.ports[s.port]? = some { q with responses := q.responses ++ [⟨.ok, 0#32⟩, ⟨.ok, v⟩] }

/-- R73, R77: the parameter does not reach any frame: with another `PARAM`, `PROCESS` and `CONFIGURE` do the same and
keep it. -/
def Obligations.ParamDoesNotReachFrames : Prop :=
  ∀ (p : Word) (s : State),
    (∀ base, exec (.process base) { s with param := p } = withParam p (exec (.process base) s)) ∧
    (∀ d, exec (.configure d) { s with param := p } = withParam p (exec (.configure d) s))

/-! ### CONFIGURE -/

/-- R81: `CONFIGURE` by its layout code; every field not named is unchanged. -/
def Obligations.ConfigureByLayout : Prop :=
  ∀ (d : Descriptor) (s : State), s.fault = false →
    encode (.configure d) = [0x30000000#32 ||| d.layout.setWidth 32, d.geom.height ++ d.geom.width, d.geom.stride,
      d.geom.offB ++ d.geom.offG ++ d.geom.offR ++ d.geom.pstride] ∧
    (d.layout = 1#8 → exec (.configure d) s =
      .next { s with mode := .planar, geom := d.geom, cfgerr := false, ports := answered s .ok 0#32 }) ∧
    (d.layout = 2#8 → exec (.configure d) s =
      .next { s with mode := .packedYUV, geom := d.geom, cfgerr := false, ports := answered s .ok 0#32 }) ∧
    (d.layout = 3#8 → exec (.configure d) s =
      .next { s with mode := .packedRGB, geom := d.geom, cfgerr := false, ports := answered s .ok 0#32 }) ∧
    (d.layout ≠ 1#8 → d.layout ≠ 2#8 → d.layout ≠ 3#8 → exec (.configure d) s =
      .next { s with cfgerr := true, ports := answered s .unsupportedFormat (BitVec.ofNat 32 d.layout.toNat) })

/-- R82: the configuration state machine, for every command. -/
def Obligations.ConfigurationStateMachine : Prop :=
  ∀ (i : Instr) (s t : State), s.fault = false → exec i s = .next t → (t.mode, t.cfgerr, t.fault) = configNext s i

/-! ### PROCESS -/

/-- R90: `PROCESS` with no successful `CONFIGURE` in force faults before any access. -/
def Obligations.ProcessNotConfiguredFaults : Prop :=
  ∀ (base : Word) (s : State), s.fault = false → (s.mode = .unconfigured ∨ s.cfgerr = true) →
    exec (.process base) s = .next { s with fault := true, fcode := 3#2, ports := answered s .fault 3#32 }

/-- R91: a planar `PROCESS` is the pseudocode of `PlanarTransform`, with its accesses in order. -/
def Obligations.PlanarRunsPseudocode : Prop :=
  ∀ (base : Word) (s : State), s.fault = false → s.mode = .planar → s.cfgerr = false →
    runsAs s base (planarTransform s base s.mem) (planarEvents s base)

/-- R92: a packed-YUV `PROCESS` is the pseudocode of `PackedYUVTransform`, with its accesses in order. -/
def Obligations.PackedYUVRunsPseudocode : Prop :=
  ∀ (base : Word) (s : State), s.fault = false → s.mode = .packedYUV → s.cfgerr = false →
    runsAs s base (packedYUVTransform s base s.mem) (packedYUVEvents s base)

/-- R109: a packed-RGB `PROCESS` is the pseudocode of `PackedRGBTransform` and `RGBPixel`, with its accesses in order, for
every pair of coefficient sets. -/
def Obligations.PackedRGBRunsPseudocode : Prop :=
  ∀ (base : Word) (s : State), s.fault = false → s.mode = .packedRGB → s.cfgerr = false →
    runsAs s base (packedRGBTransform s base s.mem) (packedRGBEvents s base)

/-- R90, R37: `PROCESS` completes in every strategy when the frame is provided; the bytes provided stay the same ones. -/
def Obligations.ProcessCompletesOnProvidedFrame : Prop :=
  ∀ (base : Word) (s : State) (m : Mode), m ≠ .unconfigured → Ready s base m →
    ∃ m', exec (.process base) s =
        .next { s with mem := m', busLog := s.busLog ++ (s.frameAccesses base).map Access.event,
                       ports := answered s .ok 0#32 } ∧
      ∀ a, (Memory.read m' a).isSome = (Memory.read s.mem a).isSome

/-- R39 (b), U17: where memory does not provide a byte of the footprint, the `PROCESS` has no step. -/
def Obligations.ProcessStuckOnMissingByte : Prop :=
  ∀ (base : Word) (s : State), s.mode ≠ .unconfigured → s.cfgerr = false →
    (∃ a ∈ s.footprint base, Memory.read s.mem a = none) →
    ∃ a ∈ s.footprint base, Memory.read s.mem a = none ∧ exec (.process base) s = .fault (.memoryNotProvided a)

/-- R35, R90: the frame of `PROCESS`: no byte outside the footprint, no field but the memory, the log of accesses and the
response. -/
def Obligations.ProcessChangesOnlyItsFootprint : Prop :=
  ∀ (base : Word) (s t : State), s.fault = false → s.mode ≠ .unconfigured → s.cfgerr = false →
    exec (.process base) s = .next t →
    t = { s with mem := t.mem, busLog := t.busLog, ports := answered s .ok 0#32 } ∧
    ∀ a, a ∉ s.footprint base → Memory.read t.mem a = Memory.read s.mem a

/-- R93 (d), planar: every byte of a disjoint frame ends as `LUMA` of its own old value. -/
def Obligations.PlanarResultOnDisjointFrame : Prop :=
  ∀ (base : Word) (s : State), Ready s base .planar → s.geomDisjoint base →
    ∃ t, exec (.process base) s = .next t ∧
      ∀ i j, i < s.geom.height.toNat → j < s.geom.width.toNat →
        ∃ x, Memory.read s.mem ((base.toNat + i * s.geom.stride.toNat + j) % 2 ^ s.params.aw) = some x ∧
          Memory.read t.mem ((base.toNat + i * s.geom.stride.toNat + j) % 2 ^ s.params.aw) = some (lookup s.luma x)

/-- R93 (d), packed YUV: first bytes of a disjoint frame end as `LUMA`, second bytes as `CHROMA`, of their old values. -/
def Obligations.PackedYUVResultOnDisjointFrame : Prop :=
  ∀ (base : Word) (s : State), Ready s base .packedYUV → s.geomDisjoint base →
    ∃ t, exec (.process base) s = .next t ∧
      ∀ i j, i < s.geom.height.toNat → j < s.geom.width.toNat →
        let p := base.toNat + i * s.geom.stride.toNat + j * s.geom.pstride.toNat
        ∃ x y, Memory.read s.mem (p % 2 ^ s.params.aw) = some x ∧
          Memory.read s.mem ((p + 1) % 2 ^ s.params.aw) = some y ∧
          Memory.read t.mem (p % 2 ^ s.params.aw) = some (lookup s.luma x) ∧
          Memory.read t.mem ((p + 1) % 2 ^ s.params.aw) = some (lookup s.chroma y)

/-- R109 on a disjoint frame: every pixel ends as `RGBPixel` of its own three bytes, for every pair of coefficient
sets. -/
def Obligations.PackedRGBResultOnDisjointFrame : Prop :=
  ∀ (base : Word) (s : State), Ready s base .packedRGB → s.geomDisjoint base →
    ∃ t, exec (.process base) s = .next t ∧
      ∀ i j, i < s.geom.height.toNat → j < s.geom.width.toNat →
        let p := base.toNat + i * s.geom.stride.toNat + j * s.geom.pstride.toNat
        ∃ r g b, Memory.read s.mem ((p + s.geom.offR.toNat) % 2 ^ s.params.aw) = some r ∧
          Memory.read s.mem ((p + s.geom.offG.toNat) % 2 ^ s.params.aw) = some g ∧
          Memory.read s.mem ((p + s.geom.offB.toNat) % 2 ^ s.params.aw) = some b ∧
          Memory.read t.mem ((p + s.geom.offR.toNat) % 2 ^ s.params.aw) = some (pixel s r g b).1 ∧
          Memory.read t.mem ((p + s.geom.offG.toNat) % 2 ^ s.params.aw) = some (pixel s r g b).2.1 ∧
          Memory.read t.mem ((p + s.geom.offB.toNat) % 2 ^ s.params.aw) = some (pixel s r g b).2.2

/-- R90: an empty frame makes no access and answers `OK`, whatever memory provides. -/
def Obligations.EmptyFrameMakesNoAccess : Prop :=
  ∀ (base : Word) (s : State), s.fault = false → s.mode ≠ .unconfigured → s.cfgerr = false →
    (s.geom.width = 0#16 ∨ s.geom.height = 0#16) →
    exec (.process base) s = .next { s with ports := answered s .ok 0#32 }

/-- R91, R92, R109: the fields a strategy does not read do not change what it leaves in memory. -/
def Obligations.UnreadFieldsDoNotMatter : Prop :=
  ∀ (base : Word) (s : State) (c : Table) (p r g b : Byte),
    (s.mode = .planar →
      memoryAfter (exec (.process base)
        { s with chroma := c, geom := { s.geom with pstride := p, offR := r, offG := g, offB := b } }) =
      memoryAfter (exec (.process base) s)) ∧
    (s.mode = .packedYUV →
      memoryAfter (exec (.process base) { s with geom := { s.geom with offR := r, offG := g, offB := b } }) =
      memoryAfter (exec (.process base) s)) ∧
    (s.mode = .packedRGB →
      memoryAfter (exec (.process base) { s with chroma := c }) = memoryAfter (exec (.process base) s))

/-- R93 (c): what a frame leaves in its footprint depends only on the bytes of the footprint, the geometry, the tables and
the coefficient sets. -/
def Obligations.FrameDependsOnlyOnItsFootprint : Prop :=
  ∀ (base : Word) (s s' t : State), s'.params = s.params → s'.luma = s.luma → s'.chroma = s.chroma →
    s'.mode = s.mode → s'.cfgerr = s.cfgerr → s'.geom = s.geom →
    (∀ a ∈ s.footprint base, Memory.read s'.mem a = Memory.read s.mem a) →
    exec (.process base) s = .next t →
    ∃ t', exec (.process base) s' = .next t' ∧ ∀ a ∈ s.footprint base, Memory.read t'.mem a = Memory.read t.mem a

/-- R40, planar row: the sufficient condition for `GeomDisjoint`. -/
def Obligations.PlanarGeometrySufficesForDisjoint : Prop :=
  ∀ (base : Word) (s : State), s.mode = .planar →
    (s.geom.height.toNat ≤ 1 ∨ s.geom.width.toNat ≤ s.geom.stride.toNat) →
    (1 ≤ s.geom.width.toNat → 1 ≤ s.geom.height.toNat →
      base.toNat + (s.geom.height.toNat - 1) * s.geom.stride.toNat + s.geom.width.toNat ≤ 2 ^ s.params.aw) →
    s.geomDisjoint base

/-- R40, packed-YUV row: the sufficient condition for `GeomDisjoint`. -/
def Obligations.PackedYUVGeometrySufficesForDisjoint : Prop :=
  ∀ (base : Word) (s : State), s.mode = .packedYUV →
    (s.geom.width.toNat ≤ 1 ∨ 2 ≤ s.geom.pstride.toNat) →
    (s.geom.height.toNat ≤ 1 ∨ (s.geom.width.toNat - 1) * s.geom.pstride.toNat + 2 ≤ s.geom.stride.toNat) →
    (1 ≤ s.geom.width.toNat → 1 ≤ s.geom.height.toNat →
      base.toNat + (s.geom.height.toNat - 1) * s.geom.stride.toNat +
        (s.geom.width.toNat - 1) * s.geom.pstride.toNat + 2 ≤ 2 ^ s.params.aw) →
    s.geomDisjoint base

/-- R40, packed-RGB row: the sufficient condition for `GeomDisjoint`. -/
def Obligations.PackedRGBGeometrySufficesForDisjoint : Prop :=
  ∀ (base : Word) (s : State), s.mode = .packedRGB →
    (s.geom.offR ≠ s.geom.offG ∧ s.geom.offR ≠ s.geom.offB ∧ s.geom.offG ≠ s.geom.offB) →
    (s.geom.width.toNat ≤ 1 ∨
      (s.geom.offR < s.geom.pstride ∧ s.geom.offG < s.geom.pstride ∧ s.geom.offB < s.geom.pstride)) →
    (s.geom.height.toNat ≤ 1 ∨
      (s.geom.width.toNat - 1) * s.geom.pstride.toNat +
        max s.geom.offR.toNat (max s.geom.offG.toNat s.geom.offB.toNat) + 1 ≤ s.geom.stride.toNat) →
    (1 ≤ s.geom.width.toNat → 1 ≤ s.geom.height.toNat →
      base.toNat + (s.geom.height.toNat - 1) * s.geom.stride.toNat + (s.geom.width.toNat - 1) * s.geom.pstride.toNat +
        max s.geom.offR.toNat (max s.geom.offG.toNat s.geom.offB.toNat) + 1 ≤ 2 ^ s.params.aw) →
    s.geomDisjoint base

/-- R148, R93 (b): a second planar `PROCESS` remaps every byte again, and leaves it as the first did exactly at the fixed
points of the luma table. -/
def Obligations.SecondPlanarPassRemapsAgain : Prop :=
  ∀ (base : Word) (s : State), Ready s base .planar → s.geomDisjoint base → s.luma = lumaTable →
    ∃ t u, exec (.process base) s = .next t ∧ exec (.process base) t = .next u ∧
      ∀ i j, i < s.geom.height.toNat → j < s.geom.width.toNat →
        ∃ x y z, Memory.read s.mem (s.planarAddr base i j) = some x ∧ Memory.read t.mem (s.planarAddr base i j) = some y ∧
          Memory.read u.mem (s.planarAddr base i j) = some z ∧ z = lookup lumaTable (lookup lumaTable x) ∧
          (z = y ↔ 110#8 ≤ y ∧ y ≤ 116#8)

/-! ### The colour matrix -/

/-- R106: `ApplyRow` is the exact sum floored over 256, and `ApplyMatrix` its three rows. -/
def Obligations.ApplyMatrixFloorsExactSums : Prop :=
  (∀ (c : CoefRow) (v1 v2 v3 : Int),
    applyRow c v1 v2 v3 = ⌊((c.c0 * v1 + c.c1 * v2 + c.c2 * v3 + c.c3 : ℤ) : ℚ) / 256⌋) ∧
  (∀ (m : CoefSet) (v1 v2 v3 : Int),
    applyMatrix m v1 v2 v3 = (applyRow m.row0 v1 v2 v3, applyRow m.row1 v1 v2 v3, applyRow m.row2 v1 v2 v3)) ∧
  applyRow ⟨0, 0, 0, -54⟩ 0 0 0 = -1 ∧ applyRow ⟨0, 0, 0, 52⟩ 0 0 0 = 0 ∧ applyRow ⟨0, 0, 0, 66311⟩ 0 0 0 = 259

/-- R107: `Clamp8` saturates at both ends and is the identity between. -/
def Obligations.Clamp8Saturates : Prop :=
  ∀ x : Int, (x < 0 → clamp8 x = 0#8) ∧ (255 < x → clamp8 x = 255#8) ∧
    (0 ≤ x → x ≤ 255 → ((clamp8 x).toNat : Int) = x)

/-- R108, R110: the ranges of every sum with the default coefficient sets, which are the premise: the clamp of `Y` never
acts, and the remapped luma lies in 30..218. -/
def Obligations.DefaultSumsStayInRange : Prop :=
  ∀ (p : Params) (r g b y2 : Byte), p.coefFwd = coefFwdDefault → p.coefInv = coefInvDefault →
    let sumY := rowSum p.coefFwd.row0 (byteInt r) (byteInt g) (byteInt b)
    let sumCb := rowSum p.coefFwd.row1 (byteInt r) (byteInt g) (byteInt b)
    let sumCr := rowSum p.coefFwd.row2 (byteInt r) (byteInt g) (byteInt b)
    let Cb := applyRow p.coefFwd.row1 (byteInt r) (byteInt g) (byteInt b)
    let Cr := applyRow p.coefFwd.row2 (byteInt r) (byteInt g) (byteInt b)
    4096 ≤ sumY ∧ sumY ≤ 60196 ∧ 4208 ≤ sumCb ∧ sumCb ≤ 61328 ∧ 4208 ≤ sumCr ∧ sumCr ≤ 61328 ∧
    16 ≤ applyRow p.coefFwd.row0 (byteInt r) (byteInt g) (byteInt b) ∧
    applyRow p.coefFwd.row0 (byteInt r) (byteInt g) (byteInt b) ≤ 235 ∧
    (((clamp8 (applyRow p.coefFwd.row0 (byteInt r) (byteInt g) (byteInt b))).toNat : Int) =
      applyRow p.coefFwd.row0 (byteInt r) (byteInt g) (byteInt b)) ∧
    30 ≤ (lookup lumaTable (clamp8 (applyRow p.coefFwd.row0 (byteInt r) (byteInt g) (byteInt b)))).toNat ∧
    (lookup lumaTable (clamp8 (applyRow p.coefFwd.row0 (byteInt r) (byteInt g) (byteInt b)))).toNat ≤ 218 ∧
    16 ≤ Cb ∧ Cb ≤ 239 ∧ 16 ≤ Cr ∧ Cr ≤ 239 ∧
    |rowSum p.coefInv.row0 (byteInt y2) Cb Cr| < 2 ^ 19 ∧ |rowSum p.coefInv.row1 (byteInt y2) Cb Cr| < 2 ^ 19 ∧
    |rowSum p.coefInv.row2 (byteInt y2) Cb Cr| < 2 ^ 19

/-- R108: under `NoOverflow32` a 32-bit two's complement accumulator holds every forward and inverse sum, for every pair
of coefficient sets. -/
def Obligations.SumsFitAccumulatorUnderNoOverflow : Prop :=
  ∀ (p : Params) (vmax : Int) (r g b y2 : Byte), boundsChroma p vmax → noOverflow32 p vmax →
    let Cb := applyRow p.coefFwd.row1 (byteInt r) (byteInt g) (byteInt b)
    let Cr := applyRow p.coefFwd.row2 (byteInt r) (byteInt g) (byteInt b)
    (|rowSum p.coefFwd.row0 (byteInt r) (byteInt g) (byteInt b)| < 2 ^ 31 ∧
      |rowSum p.coefFwd.row1 (byteInt r) (byteInt g) (byteInt b)| < 2 ^ 31 ∧
      |rowSum p.coefFwd.row2 (byteInt r) (byteInt g) (byteInt b)| < 2 ^ 31) ∧
    |rowSum p.coefInv.row0 (byteInt y2) Cb Cr| < 2 ^ 31 ∧ |rowSum p.coefInv.row1 (byteInt y2) Cb Cr| < 2 ^ 31 ∧
    |rowSum p.coefInv.row2 (byteInt y2) Cb Cr| < 2 ^ 31

/-- R109, R110, R111: worked pixels and round trips with the default coefficient sets (log entry 2) and the built luma
table. -/
def Obligations.RgbPixelWorkedValues : Prop :=
  rgbPixel paramsDefault lumaTable 200#8 100#8 50#8 = (197#8, 98#8, 47#8) ∧
  rgbPixel paramsDefault lumaTable 0#8 0#8 0#8 = (16#8, 16#8, 16#8) ∧
  rgbPixel paramsDefault lumaTable 255#8 255#8 255#8 = (235#8, 235#8, 234#8) ∧
  rgbPixel paramsDefault lumaTable 255#8 0#8 0#8 = (255#8, 6#8, 4#8) ∧
  rgbPixel paramsDefault lumaTable 0#8 255#8 0#8 = (0#8, 249#8, 0#8) ∧
  rgbPixel paramsDefault lumaTable 255#8 255#8 0#8 = (236#8, 239#8, 0#8) ∧
  rgbPixel paramsDefault lumaTable 128#8 128#8 128#8 = (125#8, 125#8, 125#8) ∧
  roundTrip paramsDefault 0#8 0#8 0#8 = (0#8, 0#8, 0#8) ∧
  roundTrip paramsDefault 255#8 255#8 255#8 = (255#8, 255#8, 254#8) ∧
  roundTrip paramsDefault 255#8 0#8 0#8 = (253#8, 0#8, 0#8) ∧
  roundTrip paramsDefault 0#8 255#8 0#8 = (0#8, 254#8, 0#8) ∧
  roundTrip paramsDefault 0#8 0#8 255#8 = (0#8, 0#8, 251#8) ∧
  roundTrip paramsDefault 128#8 128#8 128#8 = (128#8, 128#8, 127#8)

/-! ### Encoding -/

/-- R61: the worked packets decode to the commands shown, the illegal examples to none. -/
def Obligations.WorkedPacketsDecode : Prop :=
  decodePacket [0x10000000#32, 0x400CCCCD#32] = .ok (.setparam 0x400CCCCD#32) ∧
  decodePacket [0x20000000#32] = .ok .getparam ∧
  decodePacket [0x30000003#32, 0x00010002#32, 0x00000008#32, 0x00010204#32] =
    .ok (.configure ⟨3#8, ⟨2#16, 1#16, 8#32, 4#8, 2#8, 1#8, 0#8⟩⟩) ∧
  decodePacket [0x30000009#32, 0x00020004#32, 0x00000006#32, 0x00000001#32] =
    .ok (.configure ⟨9#8, ⟨4#16, 2#16, 6#32, 1#8, 0#8, 0#8, 0#8⟩⟩) ∧
  decodePacket [0x40000000#32, 0x00001000#32] = .ok (.process 0x1000#32) ∧
  decodePacket [0x00000000#32] = .error .reservedOpcode ∧
  decodePacket [0x50000000#32] = .error .reservedOpcode ∧
  decodePacket [0x20000000#32, 0x00000000#32] = .error .wrongLength ∧
  decodePacket [0x10000001#32, 0x3F800000#32] = .error .reservedBits ∧
  decodePacket [0x30000101#32, 0x00020004#32, 0x00000006#32, 0x00000001#32] = .error .reservedBits ∧
  decodePacket [0x40000000#32] = .error .wrongLength

/-- R56: `Decode(Encode(c)) = c` for every command, every operand at every value. -/
def Obligations.DecodeInvertsEncode : Prop := ∀ i : Instr, decodePacket (encode i) = .ok i

/-- R56: `Encode(Decode(P)) = P` for every legal packet. -/
def Obligations.EncodeInvertsDecode : Prop := ∀ (p : Packet) (i : Instr), decodePacket p = .ok i → encode i = p

/-- R53, R56: the decoder reads the length, the header match and every field as the tables of R52 and R53 give them. -/
def Obligations.DecodeReadsFieldsOfOpcodeMap : Prop :=
  ∀ p : Packet, (match decodePacket p with
    | .ok i => some i
    | .error _ => none) = Reference.decode p

/-- R55: exactly the packets of its four clauses are illegal, and an illegal packet faults and does nothing else. -/
def Obligations.IllegalPacketsFault : Prop :=
  ∀ (p : Packet) (s : State), s.fault = false →
    (Packet.illegal p = false → ∃ i, decodePacket p = .ok i) ∧
    (Packet.illegal p = true →
      runPacket p s = .next { s with fault := true, fcode := 1#2, ports := answered s .fault 1#32 })

/-! ### The step -/

/-- R23: a step that takes a packet of a block that has not faulted runs the command it decodes to, for the port it came
from, whether an event names the port or it is the only one waiting. R38: but a `PROCESS` whose frame a host has read or
written since it was sent stops the run. -/
def Obligations.StepRunsDecodedCommand : Prop :=
  ∀ (s : State) (k : Nat) (q : Port) (p : Packet) (ps : List Packet) (i : Instr), s.fault = false →
    s.ports[k]? = some q → q.packets = p :: ps → decodePacket p = .ok i →
    (∀ rest, s.env = .take k :: rest →
      (¬ HostRaces s k p → step s = exec i (accepted { s with env := rest } k q p ps)) ∧
      (HostRaces s k p → stopsRaced (step s))) ∧
    (s.env = [] → s.waiting = [k] →
      (¬ HostRaces s k p → step s = exec i (accepted s k q p ps)) ∧ (HostRaces s k p → stopsRaced (step s)))

/-- R123, R128: whatever packet makes a block fault, the fault entry is its only effect: `FAULT`, `FCODE`, one
response. -/
def Obligations.FaultEntryIsTheOnlyEffect : Prop :=
  ∀ (p : Packet) (s t : State), s.fault = false → runPacket p s = .next t → t.fault = true →
    ∃ code : BitVec 2, code ≠ 0#2 ∧
      t = { s with fault := true, fcode := code, ports := answered s .fault (BitVec.ofNat 32 code.toNat) }

/-- R124: a faulted block answers every packet `FAULT` with the first cause and does nothing else; a step that does not
assert reset leaves it faulted with the same cause, every other field of R10 as it was, and every byte of memory that no
host writes. -/
def Obligations.FaultedBlockOnlyAnswers : Prop :=
  (∀ (p : Packet) (s : State), s.fault = true →
    runPacket p s = .next { s with ports := answered s .fault (BitVec.ofNat 32 s.fcode.toNat) }) ∧
  (∀ s t : State, s.fault = true → s.resetNext = false → step s = .next t →
    t = { s with ports := t.ports, port := t.port, taken := t.taken, env := t.env, mem := t.mem, ledger := t.ledger } ∧
    (∀ a, (∀ v, s.hostWrites ≠ some (a, v)) → Memory.read t.mem a = Memory.read s.mem a))

/-- R17, R124, R126: after a step that asserts reset the block is not faulted; no other step clears `FAULT`. -/
def Obligations.OnlyResetClearsFault : Prop :=
  ∀ s t : State, step s = .next t →
    (s.resetNext = true → t.fault = false ∧ t.fcode = 0#2) ∧
    (s.resetNext = false → s.fault = true → t.fault = true ∧ t.fcode = s.fcode)

/-- R57, R23: a packet taken is answered by exactly one response, on its own port; the other ports are as they were. -/
def Obligations.OneResponsePerPacket : Prop :=
  ∀ (s t : State) (k : Nat) (rest : List Event) (q : Port) (p : Packet) (ps : List Packet),
    s.env = .take k :: rest → s.ports[k]? = some q → q.packets = p :: ps → step s = .next t →
    ∃ r, t.ports = s.ports.set k { packets := ps, responses := q.responses ++ [r] }

/-- R57, R58: the two words of a response. -/
def Obligations.ResponseWordsLayout : Prop :=
  ∀ data : Word,
    Response.words ⟨.ok, data⟩ = [0x00000000#32, data] ∧
    Response.words ⟨.unsupportedFormat, data⟩ = [0x00000001#32, data] ∧
    Response.words ⟨.fault, data⟩ = [0x00000002#32, data]

/-- R24, R134: with no event and no packet waiting the block waits and keeps all state. -/
def Obligations.BlockWaitsForAPacket : Prop :=
  ∀ s : State, s.env = [] → (∀ q ∈ s.ports, q.packets = []) → step s = .next s

/-- R21: with a packet waiting and no event, the block takes the oldest packet of some port that has one waiting. Which
one is the free value of log entry 6. -/
def Obligations.SomeWaitingPortIsServed : Prop :=
  ∀ s : State, s.env = [] → (∃ q ∈ s.ports, q.packets ≠ []) →
    ∃ k q p ps, s.ports[k]? = some q ∧ q.packets = p :: ps ∧
      (¬ HostRaces s k p → step s = runPacket p (accepted s k q p ps)) ∧ (HostRaces s k p → stopsRaced (step s))

/-- R21, R57, R132: a packet sent joins the end of its port's queue and no other; a response collected is the oldest of
its port, and no other changes; on a port that has no response, or is none, nothing is collected. The ledger follows (log
entry 10): a packet sent has not been touched, and a response collected gives its frame back (R38). -/
def Obligations.PortsKeepOrder : Prop :=
  ∀ (s : State) (k : Nat) (rest : List Event),
    (∀ p q, s.env = .send k p :: rest → s.ports[k]? = some q →
      step s = .next { s with
        env := rest
        ports := s.ports.set k { q with packets := q.packets ++ [p] }
        ledger := s.ledger.modify k fun l => { l with touched := l.touched ++ [[]] } }) ∧
    (∀ q r rs, s.env = .collect k :: rest → s.ports[k]? = some q → q.responses = r :: rs →
      step s = .next { s with
        env := rest
        ports := s.ports.set k { q with responses := rs }
        ledger := s.ledger.modify k fun l => { l with owned := l.owned.tail } }) ∧
    (s.env = .collect k :: rest → s.ledgerMatches → (∀ q, s.ports[k]? = some q → q.responses = []) →
      step s = .next { s with env := rest })

/-- R13: no command returns `MODE` to `Unconfigured`. -/
def Obligations.ModeNeverReturnsToUnconfigured : Prop :=
  ∀ s t : State, s.resetNext = false → s.mode ≠ .unconfigured → step s = .next t → t.mode ≠ .unconfigured

/-- R10, R11: without reset, `PARAM` changes only by a legal `SETPARAM` of the new value. -/
def Obligations.OnlySetparamChangesParam : Prop :=
  ∀ s t : State, s.resetNext = false → step s = .next t → t.param ≠ s.param →
    s.fault = false ∧ paramLegal t.param = true ∧
      ∃ p u, s.nextPacket = some (p, u) ∧ decodePacket p = .ok (.setparam t.param)

/-- R30: a step whose packet is not a `PROCESS` makes no access, and leaves every byte of memory but one a host writes. -/
def Obligations.OnlyProcessReachesMemory : Prop :=
  ∀ s t : State, step s = .next t →
    (∀ p u base, s.nextPacket = some (p, u) → decodePacket p ≠ .ok (.process base)) →
    (∀ a, (∀ v, s.hostWrites ≠ some (a, v)) → Memory.read t.mem a = Memory.read s.mem a) ∧ t.busLog = s.busLog

/-- R16, R5: no step changes the coefficient sets or any other parameter. -/
def Obligations.ParametersNeverChange : Prop := ∀ s t : State, step s = .next t → t.params = s.params

/-! ### Reset during a command, and two ports -/

/-- R142: a command cut short by reset after `n` accesses. A `PROCESS` that would have run has made exactly the first `n`
accesses of its sequence, and no byte outside the footprint has changed; every other command, an illegal packet, a
`PROCESS` with no configuration in force and any packet of a faulted block have made none. There is no response and the
reset state follows. Where the frame is provided the accesses complete; where they read a byte that is not, or where a
host has touched the frame (R38), the run stops by name. -/
def Obligations.CutCommandMakesAPrefix : Prop :=
  ∀ (s : State) (k n : Nat) (rest : List Event) (q : Port) (p : Packet) (ps : List Packet),
    s.env = .cut k n :: rest → s.ports[k]? = some q → q.packets = p :: ps →
    (∀ base, decodePacket p = .ok (.process base) → s.fault = false → s.mode ≠ .unconfigured → s.cfgerr = false →
      ¬ HostRaces s k p →
      match s.runAccesses ((s.frameAccesses base).take n) Pixel.blank s.mem with
      | .ok made =>
        step s = .next (resetOver
          { s with env := rest, taken := s.taken + 1, mem := made.2,
                   busLog := s.busLog ++ ((s.frameAccesses base).map Access.event).take n }) ∧
        ∀ a, a ∉ s.footprint base → Memory.read made.2 a = Memory.read s.mem a
      | .error a => step s = .fault (.memoryNotProvided a)) ∧
    (∀ base m, Ready s base m →
      ∃ made, s.runAccesses ((s.frameAccesses base).take n) Pixel.blank s.mem = .ok made) ∧
    (HostRaces s k p → stopsRaced (step s)) ∧
    ((s.fault = true ∨ (∀ base, decodePacket p ≠ .ok (.process base)) ∨ s.mode = .unconfigured ∨ s.cfgerr = true) →
      step s = .next (resetOver { s with env := rest, taken := s.taken + 1 }))

/-- R142: in a disjoint planar frame cut short by reset every byte holds its old or its remapped value. -/
def Obligations.CutPlanarByteIsOldOrRemapped : Prop :=
  ∀ (s t : State) (k n : Nat) (rest : List Event) (p : Packet) (base : Word) (i j : Nat) (x : Byte),
    s.env = .cut k n :: rest → s.front k = some p → decodePacket p = .ok (.process base) →
    Ready s base .planar → s.geomDisjoint base → i < s.geom.height.toNat → j < s.geom.width.toNat →
    Memory.read s.mem (s.planarAddr base i j) = some x → step s = .next t →
    Memory.read t.mem (s.planarAddr base i j) = some x ∨
      Memory.read t.mem (s.planarAddr base i j) = some (lookup s.luma x)

/-- R21, R22, R94: a `PROCESS` on one port and a `SETPARAM` on another give the same state in both execution orders. -/
def Obligations.SetparamAndProcessCommute : Prop :=
  ∀ (base v : Word) (s : State) (m : Mode) (j k : Nat), m ≠ .unconfigured → Ready s base m → s.tablesBuilt →
    paramLegal v = true →
    ∃ t u t' u', exec (.process base) { s with port := j } = .next t ∧ exec (.setparam v) { t with port := k } = .next u ∧
      exec (.setparam v) { s with port := k } = .next t' ∧ exec (.process base) { t' with port := j } = .next u' ∧
      { u with port := 0 } = { u' with port := 0 }

/-! ### Memory and the assembler -/

/-- R39 (a): a byte written is the byte later read, and no other byte changes. -/
def Obligations.MemoryReadsLastWrite : Prop :=
  ∀ (m : Memory) (a a' : Nat) (v : Byte),
    Memory.read (Memory.write m a v) a' = if a' = a then some v else Memory.read m a'

/-- R38, U11: between commands a host reads and writes any byte of frame memory that is not the block's, whatever waits,
and no other byte changes. The footprint of a `PROCESS` is the block's from its sending to the collecting of its response:
the `PROCESS` stops the run if a host has touched a byte of it since the sending, and only then; and once it has executed,
a host's access to a byte of it stops the run. The form of the window is that of log entry 10. -/
def Obligations.HostAccessRespectsOwnership : Prop :=
  ∀ (s : State) (a : Nat) (v : Byte) (rest : List Event),
    (s.env = .store a v :: rest → a < 2 ^ s.params.aw → (∀ l ∈ s.ledger, ∀ frame ∈ l.owned, a ∉ frame) →
      step s = .next { s with env := rest, mem := Memory.write s.mem a v, ledger := noted s a }) ∧
    (s.env = .load a :: rest → a < 2 ^ s.params.aw → (∀ l ∈ s.ledger, ∀ frame ∈ l.owned, a ∉ frame) →
      step s = .next { s with env := rest, ledger := noted s a }) ∧
    (s.env = .store a v :: rest ∨ s.env = .load a :: rest →
      (a < 2 ^ s.params.aw → (∃ l ∈ s.ledger, ∃ frame ∈ l.owned, a ∈ frame) → step s = .fault (.frameRace a)) ∧
      (2 ^ s.params.aw ≤ a → step s = .fault (.outsideFrameMemory a))) ∧
    (∀ (k : Nat) (q : Port) (p : Packet) (ps : List Packet) (base : Word) (l : Ledger) (t : State),
      s.ports[k]? = some q → q.packets = p :: ps → decodePacket p = .ok (.process base) →
      s.fault = false → s.mode ≠ .unconfigured → s.cfgerr = false → s.ledger[k]? = some l → step s = .next t →
      (s.env = .store a v :: .take k :: rest ∨ s.env = .load a :: .take k :: rest → l.touched ≠ [] →
        (a ∈ s.footprint base → stopsRaced (step t)) ∧
        (a ∉ s.footprint base → ¬ HostRaces s k p →
          step t = exec (.process base) (accepted { t with env := rest } k q p ps))) ∧
      (s.env = .take k :: .store a v :: rest ∨ s.env = .take k :: .load a :: rest → a ∈ s.footprint base →
        step t = .fault (.frameRace a)))

/-- R60: each pseudo-command assembles as its expansion. -/
def Obligations.PseudoCommandsExpand : Prop :=
  ∀ w h st ps r g b : Nat,
    assemble (.configurePlanar w h st) = assemble (.configure 1 w h st 1 0 0 0) ∧
    assemble (.configureYuv w h st ps) = assemble (.configure 2 w h st ps 0 0 0) ∧
    assemble (.configureRgb w h st ps r g b) = assemble (.configure 3 w h st ps r g b) ∧
    assemble .setparamDefault = assemble (.setparam 0x3F800000)

/-- R59: the assembler accepts exactly the operands in range and encodes them as they are; it checks neither the
parameter's legality nor the layout. -/
def Obligations.AssemblerRefusesOutOfRange : Prop :=
  (∀ v : Nat, assemble (.setparam v) = if v < 2 ^ 32 then some (encode (.setparam (BitVec.ofNat 32 v))) else none) ∧
  assemble .getparam = some (encode .getparam) ∧
  (∀ v : Nat, assemble (.process v) = if v < 2 ^ 32 then some (encode (.process (BitVec.ofNat 32 v))) else none) ∧
  (∀ l w h st ps r g b : Nat, assemble (.configure l w h st ps r g b) =
    if l < 256 ∧ w < 65536 ∧ h < 65536 ∧ st < 2 ^ 32 ∧ ps < 256 ∧ r < 256 ∧ g < 256 ∧ b < 256 then
      some (encode (.configure
        ⟨BitVec.ofNat 8 l, ⟨BitVec.ofNat 16 w, BitVec.ofNat 16 h, BitVec.ofNat 32 st, BitVec.ofNat 8 ps, BitVec.ofNat 8 r,
          BitVec.ofNat 8 g, BitVec.ofNat 8 b⟩⟩))
    else none)
end

