-- ==== Sys2Proof/Laws/Memory.lean ====
section
/-! SUPPORT. The laws of frame memory: a read after a write, and the canonical form kept by every operation. -/

namespace Sys2Proof.Machine

@[simp] theorem Memory.read_nil (a : Nat) : Memory.read [] a = none := rfl

/-- A byte written is the byte read back. -/
@[simp] theorem Memory.read_write_same (m : Memory) (a : Nat) (v : Byte) :
    Memory.read (Memory.write m a v) a = some v := by
  induction m with
  | nil => simp [Memory.write, Memory.read]
  | cons c rest ih =>
    obtain ⟨k, b⟩ := c
    by_cases h : a = k
    · simp [Memory.write, Memory.read, h]
    · by_cases hlt : a < k
      · simp [Memory.write, Memory.read, h, hlt]
      · simp [Memory.write, Memory.read, h, hlt, ih]

/-- A write leaves every other byte alone. -/
theorem Memory.read_write_other (m : Memory) {a a' : Nat} (v : Byte) (hne : a' ≠ a) :
    Memory.read (Memory.write m a v) a' = Memory.read m a' := by
  induction m with
  | nil => simp [Memory.write, Memory.read, hne]
  | cons c rest ih =>
    obtain ⟨k, b⟩ := c
    by_cases h : a = k
    · subst h; simp [Memory.write, Memory.read, hne]
    · by_cases hlt : a < k
      · have hk : a' < a → a' < k := by omega
        have hk' : a' < a → a' ≠ k := by omega
        simp only [Memory.write, h, hlt, if_true, if_false, Memory.read, hne]
        split
        · rename_i h'; simp [hk h', hk' h']
        · rfl
      · simp [Memory.write, Memory.read, h, hlt, ih]

theorem Memory.read_write (m : Memory) (a a' : Nat) (v : Byte) :
    Memory.read (Memory.write m a v) a' = if a' = a then some v else Memory.read m a' := by
  by_cases h : a' = a
  · subst h; simp
  · simp [h, Memory.read_write_other m v h]

/-- The cells of a memory after a write are the written one and cells that were there. -/
theorem Memory.mem_write {m : Memory} {a : Nat} {v : Byte} {c : Host.Cell} (h : c ∈ Memory.write m a v) :
    c = (a, v) ∨ c ∈ m := by
  induction m with
  | nil => simpa [Memory.write] using h
  | cons d rest ih =>
    obtain ⟨k, b⟩ := d
    simp only [Memory.write] at h
    split at h
    · rcases List.mem_cons.1 h with h | h
      · exact .inl h
      · exact .inr (List.mem_cons_of_mem _ h)
    · split at h
      · rcases List.mem_cons.1 h with h | h
        · exact .inl h
        · exact .inr h
      · rcases List.mem_cons.1 h with h | h
        · exact .inr (h ▸ List.mem_cons_self)
        · rcases ih h with h | h
          · exact .inl h
          · exact .inr (List.mem_cons_of_mem _ h)

/-- A write keeps the canonical form. -/
theorem Memory.write_wf {m : Memory} (a : Nat) (v : Byte) (hm : Memory.wf m) : Memory.wf (Memory.write m a v) := by
  induction m with
  | nil => simp [Memory.write]
  | cons d rest ih =>
    obtain ⟨k, b⟩ := d
    obtain ⟨hk, hrest⟩ := List.pairwise_cons.1 hm
    simp only [Memory.write]
    split
    · rename_i h; subst h; exact List.pairwise_cons.2 ⟨hk, hrest⟩
    · split
      · rename_i hlt
        refine List.pairwise_cons.2 ⟨fun c hc => ?_, hm⟩
        rcases List.mem_cons.1 hc with rfl | hc
        · exact hlt
        · exact lt_trans hlt (hk c hc)
      · refine List.pairwise_cons.2 ⟨fun c hc => ?_, ih hrest⟩
        rcases Memory.mem_write hc with rfl | hc
        · show k < a
          omega
        · exact hk c hc

/-- A write inside the address space keeps memory inside it. -/
theorem Memory.write_inSpace {m : Memory} {aw a : Nat} (v : Byte) (hm : Memory.inSpace m aw) (ha : a < 2 ^ aw) :
    Memory.inSpace (Memory.write m a v) aw := fun c hc => by
  rcases Memory.mem_write hc with rfl | hc
  · exact ha
  · exact hm c hc

/-- The reset memory is in canonical form. -/
theorem State.reset_mem_wf : Memory.wf State.reset.mem := List.Pairwise.nil

end Sys2Proof.Machine
end

