-- ==== Sys2Proof/Laws/Frame.lean ====
section
/-! SUPPORT. What the access sequences of `PROCESS` do to memory: one lemma per operation, cited by every proof about a
frame. -/

namespace Sys2Proof.Machine

@[simp] theorem State.runAccesses_nil (s : State) (px : Pixel) (m : Memory) : s.runAccesses [] px m = .ok (px, m) := rfl

/-- An access sequence made in two parts. -/
theorem State.runAccesses_append (s : State) (l l' : List Access) (px : Pixel) (m : Memory) :
    s.runAccesses (l ++ l') px m =
      match s.runAccesses l px m with
      | .error a => .error a
      | .ok pm => s.runAccesses l' pm.1 pm.2 := by
  induction l generalizing px m with
  | nil => rfl
  | cons a rest ih =>
    simp only [List.cons_append, State.runAccesses]
    cases s.access a px m with
    | error e => rfl
    | ok pm => exact ih pm.1 pm.2

/-- The address of an access. -/
def Access.addr : Access → Nat
  | .read _ a => a
  | .write _ a => a

/-- Everything one access can do: a read of a provided byte, a write, or no completion. -/
theorem State.access_cases {s : State} {a : Access} {px px' : Pixel} {m m' : Memory}
    (h : s.access a px m = .ok (px', m')) :
    (∃ c addr b, a = .read c addr ∧ Memory.read m addr = some b ∧ px' = px.fill c b ∧ m' = m) ∨
      (∃ v addr, a = .write v addr ∧ px' = px ∧ m' = Memory.write m addr (s.sourceByte px v)) := by
  cases a with
  | read c addr =>
    simp only [State.access] at h
    split at h
    · cases h
    · rename_i b hb
      cases h
      exact .inl ⟨c, addr, b, rfl, hb, rfl, rfl⟩
  | write v addr =>
    simp only [State.access] at h
    cases h
    exact .inr ⟨v, addr, rfl, rfl, rfl⟩

/-- A property of memory that every write to an address in `P` keeps is kept by an access sequence in `P`. -/
theorem State.runAccesses_keeps {s : State} {P : Nat → Prop} {Q : Memory → Prop}
    (hw : ∀ m a v, P a → Q m → Q (Memory.write m a v)) {l : List Access} {px : Pixel} {m : Memory} {pm : Pixel × Memory}
    (hl : ∀ a ∈ l, P a.addr) (h : s.runAccesses l px m = .ok pm) (hm : Q m) : Q pm.2 := by
  induction l generalizing px m with
  | nil => simp only [State.runAccesses_nil, Except.ok.injEq] at h; subst h; exact hm
  | cons a rest ih =>
    simp only [State.runAccesses] at h
    split at h
    · cases h
    · rename_i pm1 h1
      refine ih (fun b hb => hl b (List.mem_cons_of_mem _ hb)) h ?_
      rcases State.access_cases (px' := pm1.1) (m' := pm1.2) h1 with ⟨c, addr, b, -, -, -, hm'⟩ | ⟨v, addr, rfl, -, hm'⟩
      · rw [hm']; exact hm
      · rw [hm']; exact hw _ _ _ (hl _ List.mem_cons_self) hm

/-- An access sequence leaves every byte it does not address. -/
theorem State.runAccesses_frame {s : State} {l : List Access} {px : Pixel} {m : Memory} {pm : Pixel × Memory} {a : Nat}
    (ha : a ∉ l.map Access.addr) (h : s.runAccesses l px m = .ok pm) : Memory.read pm.2 a = Memory.read m a := by
  refine State.runAccesses_keeps (P := fun x => x ≠ a) (Q := fun m' => Memory.read m' a = Memory.read m a)
    (fun m' x v hx hq => ?_) (fun b hb hba => ha (List.mem_map.2 ⟨b, hb, hba⟩)) h rfl
  rw [Memory.read_write_other m' v (Ne.symm hx), hq]

/-- An access sequence keeps the canonical form. -/
theorem State.runAccesses_wf {s : State} {l : List Access} {px : Pixel} {m : Memory} {pm : Pixel × Memory}
    (h : s.runAccesses l px m = .ok pm) (hm : Memory.wf m) : Memory.wf pm.2 :=
  State.runAccesses_keeps (P := fun _ => True) (Q := Memory.wf) (fun _ a v _ hq => Memory.write_wf a v hq)
    (fun _ _ => trivial) h hm

/-- An access sequence inside the address space keeps memory inside it. -/
theorem State.runAccesses_inSpace {s : State} {l : List Access} {px : Pixel} {m : Memory} {pm : Pixel × Memory} {aw : Nat}
    (hl : ∀ a ∈ l, a.addr < 2 ^ aw) (h : s.runAccesses l px m = .ok pm) (hm : Memory.inSpace m aw) :
    Memory.inSpace pm.2 aw :=
  State.runAccesses_keeps (P := fun x => x < 2 ^ aw) (Q := fun m' => Memory.inSpace m' aw)
    (fun _ _ v hx hq => Memory.write_inSpace v hq hx) hl h hm

/-- A byte that is provided stays provided. -/
theorem State.runAccesses_provided {s : State} {l : List Access} {px : Pixel} {m : Memory} {pm : Pixel × Memory} {a : Nat}
    (h : s.runAccesses l px m = .ok pm) (hm : (Memory.read m a).isSome = true) : (Memory.read pm.2 a).isSome = true :=
  State.runAccesses_keeps (P := fun _ => True) (Q := fun m' => (Memory.read m' a).isSome = true)
    (fun m' x v _ hq => by rw [Memory.read_write]; split <;> simp_all) (fun _ _ => trivial) h hm

/-- Where every byte addressed is provided, an access sequence completes. -/
theorem State.runAccesses_completes {s : State} {l : List Access} {px : Pixel} {m : Memory}
    (hl : ∀ a ∈ l, (Memory.read m a.addr).isSome = true) : ∃ pm, s.runAccesses l px m = .ok pm := by
  induction l generalizing px m with
  | nil => exact ⟨_, rfl⟩
  | cons a rest ih =>
    have hrest : ∀ b ∈ rest, (Memory.read m b.addr).isSome = true := fun b hb => hl b (List.mem_cons_of_mem _ hb)
    cases a with
    | read c addr =>
      obtain ⟨b, hb⟩ := Option.isSome_iff_exists.1 (hl _ List.mem_cons_self)
      simp only [Access.addr] at hb
      simp only [State.runAccesses, State.access, hb]
      exact ih hrest
    | write v addr =>
      simp only [State.runAccesses, State.access]
      exact ih fun b hb => by rw [Memory.read_write]; split <;> simp_all

/-- An access sequence that does not complete stops at a byte it addresses and memory does not provide. -/
theorem State.runAccesses_stuck {s : State} {l : List Access} {px : Pixel} {m : Memory} {a : Nat}
    (h : s.runAccesses l px m = .error a) : a ∈ l.map Access.addr ∧ Memory.read m a = none := by
  induction l generalizing px m with
  | nil => simp at h
  | cons b rest ih =>
    cases b with
    | read c addr =>
      simp only [State.runAccesses, State.access] at h
      cases hb : Memory.read m addr with
      | none =>
        simp only [hb, Except.error.injEq] at h
        subst h
        exact ⟨by simp [Access.addr], hb⟩
      | some v =>
        simp only [hb] at h
        exact ⟨List.mem_cons_of_mem _ (ih h).1, (ih h).2⟩
    | write v addr =>
      simp only [State.runAccesses, State.access] at h
      obtain ⟨h1, h2⟩ := ih h
      refine ⟨List.mem_cons_of_mem _ h1, ?_⟩
      rw [Memory.read_write] at h2
      split at h2
      · cases h2
      · exact h2

/-- The units of a frame are the pairs inside its height and width. -/
@[simp] theorem State.mem_units {s : State} {u : Nat × Nat} :
    u ∈ s.units ↔ u.1 < s.geom.height.toNat ∧ u.2 < s.geom.width.toNat := by
  obtain ⟨i, j⟩ := u
  simp [State.units]

/-- The accesses of a unit address exactly its footprint. -/
theorem State.unitAccesses_addr (s : State) (base : Word) (i j a : Nat) :
    a ∈ (s.unitAccesses base i j).map Access.addr ↔ a ∈ s.unitFootprint base i j := by
  unfold State.unitAccesses State.unitFootprint
  cases s.mode <;> simp [Access.addr]
  tauto

/-- The accesses of a frame address exactly its footprint (R35). -/
theorem State.frameAccesses_addr (s : State) (base : Word) (a : Nat) :
    a ∈ (s.frameAccesses base).map Access.addr ↔ a ∈ s.footprint base := by
  have key := s.unitAccesses_addr base
  simp only [State.frameAccesses, State.footprint, List.map_flatMap, List.mem_flatMap]
  exact ⟨fun ⟨u, hu, ha⟩ => ⟨u, hu, (key u.1 u.2 a).1 ha⟩, fun ⟨u, hu, ha⟩ => ⟨u, hu, (key u.1 u.2 a).2 ha⟩⟩

/-- Every footprint address lies in the address space (R34). -/
theorem State.footprint_inSpace {s : State} {base : Word} {a : Nat} (h : a ∈ s.footprint base) : a < 2 ^ s.params.aw := by
  obtain ⟨u, -, ha⟩ := List.mem_flatMap.1 h
  have hpos : 0 < 2 ^ s.params.aw := by positivity
  unfold State.unitFootprint at ha
  cases hm : s.mode <;> simp only [hm, List.mem_cons, List.not_mem_nil, or_false] at ha
  · subst ha; exact Nat.mod_lt _ hpos
  · rcases ha with rfl | rfl <;> exact Nat.mod_lt _ hpos
  · rcases ha with rfl | rfl | rfl <;> exact Nat.mod_lt _ hpos

/-- The access sequence of a frame is decided by the parameters, the mode and the geometry alone. -/
theorem State.frameAccesses_congr {s s' : State} (hp : s'.params = s.params) (hm : s'.mode = s.mode)
    (hg : s'.geom = s.geom) (base : Word) : s'.frameAccesses base = s.frameAccesses base := by
  simp only [State.frameAccesses, State.units, State.unitAccesses, State.planarAddr, State.yAddr, State.cAddr,
    State.rAddr, State.gAddr, State.bAddr, State.unitStart, hp, hm, hg]

/-- What an access sequence does is decided by the parameters and the tables alone, beside the memory it starts from. -/
theorem State.runAccesses_congr {s s' : State} (hp : s'.params = s.params) (hl : s'.luma = s.luma)
    (hc : s'.chroma = s.chroma) (l : List Access) (px : Pixel) (m : Memory) :
    s'.runAccesses l px m = s.runAccesses l px m := by
  have hs : ∀ px v, s'.sourceByte px v = s.sourceByte px v := fun px v => by
    cases v <;> simp only [State.sourceByte, hp, hl, hc]
  induction l generalizing px m with
  | nil => rfl
  | cons a rest ih =>
    have ha : s'.access a px m = s.access a px m := by cases a <;> simp only [State.access, hs]
    simp only [State.runAccesses, ha, ih]

/-- Everything the making of an access sequence can do: memory and the log, nothing else. -/
theorem State.makeAccesses_ok {s t : State} {l : List Access} (h : s.makeAccesses l = .ok t) :
    ∃ pm, s.runAccesses l Pixel.blank s.mem = .ok pm ∧
      t = { s with mem := pm.2, busLog := s.busLog ++ l.map Access.event } := by
  unfold State.makeAccesses at h
  split at h
  · rename_i pm hpm; cases h; exact ⟨pm, hpm, rfl⟩
  · cases h

theorem State.makeAccesses_error {s : State} {l : List Access} {a : Nat} (h : s.makeAccesses l = .error a) :
    s.runAccesses l Pixel.blank s.mem = .error a := by
  unfold State.makeAccesses at h
  split at h
  · cases h
  · rename_i b hb; cases h; exact hb

/-- One planar unit: the byte remapped by the luma table (R91). -/
theorem State.run_planar_unit {s : State} (hm : s.mode = .planar) (base : Word) (i j : Nat) (rest : List Access)
    (px : Pixel) (m : Memory) :
    s.runAccesses (s.unitAccesses base i j ++ rest) px m =
      match Memory.read m (s.planarAddr base i j) with
      | none => .error (s.planarAddr base i j)
      | some x =>
        s.runAccesses rest (px.fill .x x) (Memory.write m (s.planarAddr base i j) (lookup s.luma x)) := by
  simp only [State.unitAccesses, hm, List.cons_append, List.nil_append, State.runAccesses, State.access]
  cases Memory.read m (s.planarAddr base i j) <;> rfl

/-- One packed-YUV unit: the first byte by the luma table, then the second by the chroma table (R92). -/
theorem State.run_yuv_unit {s : State} (hm : s.mode = .packedYUV) (base : Word) (i j : Nat) (rest : List Access)
    (px : Pixel) (m : Memory) :
    s.runAccesses (s.unitAccesses base i j ++ rest) px m =
      match Memory.read m (s.yAddr base i j) with
      | none => .error (s.yAddr base i j)
      | some x =>
        match Memory.read (Memory.write m (s.yAddr base i j) (lookup s.luma x)) (s.cAddr base i j) with
        | none => .error (s.cAddr base i j)
        | some y =>
          s.runAccesses rest ((px.fill .x x).fill .y y)
            (Memory.write (Memory.write m (s.yAddr base i j) (lookup s.luma x)) (s.cAddr base i j) (lookup s.chroma y)) := by
  simp only [State.unitAccesses, hm, List.cons_append, List.nil_append, State.runAccesses, State.access]
  cases Memory.read m (s.yAddr base i j) with
  | none => rfl
  | some x =>
    simp only [State.sourceByte, Pixel.fill]
    cases Memory.read (Memory.write m (s.yAddr base i j) (lookup s.luma x)) (s.cAddr base i j) <;> rfl

/-- One packed-RGB unit: the three bytes read, then `RGBPixel` of them written (R109). -/
theorem State.run_rgb_unit {s : State} (hm : s.mode = .packedRGB) (base : Word) (i j : Nat) (rest : List Access)
    (px : Pixel) (m : Memory) :
    s.runAccesses (s.unitAccesses base i j ++ rest) px m =
      match Memory.read m (s.rAddr base i j) with
      | none => .error (s.rAddr base i j)
      | some r =>
        match Memory.read m (s.gAddr base i j) with
        | none => .error (s.gAddr base i j)
        | some g =>
          match Memory.read m (s.bAddr base i j) with
          | none => .error (s.bAddr base i j)
          | some b =>
            s.runAccesses rest ⟨r, g, b⟩
              (Memory.write
                (Memory.write
                  (Memory.write m (s.rAddr base i j) (rgbPixel s.params s.luma r g b).1)
                  (s.gAddr base i j) (rgbPixel s.params s.luma r g b).2.1)
                (s.bAddr base i j) (rgbPixel s.params s.luma r g b).2.2) := by
  simp only [State.unitAccesses, hm, List.cons_append, List.nil_append, State.runAccesses, State.access]
  cases Memory.read m (s.rAddr base i j) with
  | none => rfl
  | some r =>
    simp only
    cases Memory.read m (s.gAddr base i j) with
    | none => rfl
    | some g =>
      simp only
      cases Memory.read m (s.bAddr base i j) <;> rfl

end Sys2Proof.Machine
end

