-- ==== Sys2Proof/Laws/State.lean ====
section
/-! SUPPORT. One lemma for each field and each update of the state, so that no later proof unfolds a record update. -/

namespace Sys2Proof.Machine

/-! `State.respond`. -/

@[simp] theorem State.respond_params (s : State) (rc : RCode) (data : Word) :
    (s.respond rc data).params = s.params := rfl

@[simp] theorem State.respond_param (s : State) (rc : RCode) (data : Word) :
    (s.respond rc data).param = s.param := rfl

@[simp] theorem State.respond_luma (s : State) (rc : RCode) (data : Word) :
    (s.respond rc data).luma = s.luma := rfl

@[simp] theorem State.respond_chroma (s : State) (rc : RCode) (data : Word) :
    (s.respond rc data).chroma = s.chroma := rfl

@[simp] theorem State.respond_mode (s : State) (rc : RCode) (data : Word) :
    (s.respond rc data).mode = s.mode := rfl

@[simp] theorem State.respond_cfgerr (s : State) (rc : RCode) (data : Word) :
    (s.respond rc data).cfgerr = s.cfgerr := rfl

@[simp] theorem State.respond_geom (s : State) (rc : RCode) (data : Word) :
    (s.respond rc data).geom = s.geom := rfl

@[simp] theorem State.respond_fault (s : State) (rc : RCode) (data : Word) :
    (s.respond rc data).fault = s.fault := rfl

@[simp] theorem State.respond_fcode (s : State) (rc : RCode) (data : Word) :
    (s.respond rc data).fcode = s.fcode := rfl

@[simp] theorem State.respond_ports (s : State) (rc : RCode) (data : Word) :
    (s.respond rc data).ports = s.ports.modify s.port fun q => q.answered ⟨rc, data⟩ := rfl

@[simp] theorem State.respond_mem (s : State) (rc : RCode) (data : Word) :
    (s.respond rc data).mem = s.mem := rfl

@[simp] theorem State.respond_ledger (s : State) (rc : RCode) (data : Word) :
    (s.respond rc data).ledger = s.ledger := rfl

@[simp] theorem State.respond_port (s : State) (rc : RCode) (data : Word) :
    (s.respond rc data).port = s.port := rfl

@[simp] theorem State.respond_taken (s : State) (rc : RCode) (data : Word) :
    (s.respond rc data).taken = s.taken := rfl

@[simp] theorem State.respond_env (s : State) (rc : RCode) (data : Word) :
    (s.respond rc data).env = s.env := rfl

@[simp] theorem State.respond_busLog (s : State) (rc : RCode) (data : Word) :
    (s.respond rc data).busLog = s.busLog := rfl

/-! `State.raiseFault`. -/

@[simp] theorem State.raiseFault_params (s : State) (c : FaultCause) :
    (s.raiseFault c).params = s.params := rfl

@[simp] theorem State.raiseFault_param (s : State) (c : FaultCause) :
    (s.raiseFault c).param = s.param := rfl

@[simp] theorem State.raiseFault_luma (s : State) (c : FaultCause) :
    (s.raiseFault c).luma = s.luma := rfl

@[simp] theorem State.raiseFault_chroma (s : State) (c : FaultCause) :
    (s.raiseFault c).chroma = s.chroma := rfl

@[simp] theorem State.raiseFault_mode (s : State) (c : FaultCause) :
    (s.raiseFault c).mode = s.mode := rfl

@[simp] theorem State.raiseFault_cfgerr (s : State) (c : FaultCause) :
    (s.raiseFault c).cfgerr = s.cfgerr := rfl

@[simp] theorem State.raiseFault_geom (s : State) (c : FaultCause) :
    (s.raiseFault c).geom = s.geom := rfl

@[simp] theorem State.raiseFault_fault (s : State) (c : FaultCause) :
    (s.raiseFault c).fault = true := rfl

@[simp] theorem State.raiseFault_fcode (s : State) (c : FaultCause) :
    (s.raiseFault c).fcode = c.code := rfl

@[simp] theorem State.raiseFault_ports (s : State) (c : FaultCause) :
    (s.raiseFault c).ports = s.ports.modify s.port fun q => q.answered ⟨.fault, c.code.setWidth 32⟩ := rfl

@[simp] theorem State.raiseFault_mem (s : State) (c : FaultCause) :
    (s.raiseFault c).mem = s.mem := rfl

@[simp] theorem State.raiseFault_ledger (s : State) (c : FaultCause) :
    (s.raiseFault c).ledger = s.ledger := rfl

@[simp] theorem State.raiseFault_port (s : State) (c : FaultCause) :
    (s.raiseFault c).port = s.port := rfl

@[simp] theorem State.raiseFault_taken (s : State) (c : FaultCause) :
    (s.raiseFault c).taken = s.taken := rfl

@[simp] theorem State.raiseFault_env (s : State) (c : FaultCause) :
    (s.raiseFault c).env = s.env := rfl

@[simp] theorem State.raiseFault_busLog (s : State) (c : FaultCause) :
    (s.raiseFault c).busLog = s.busLog := rfl

/-! `State.raiseUnsupportedFormat`. -/

@[simp] theorem State.raiseUnsupportedFormat_params (s : State) (layout : Byte) :
    (s.raiseUnsupportedFormat layout).params = s.params := rfl

@[simp] theorem State.raiseUnsupportedFormat_param (s : State) (layout : Byte) :
    (s.raiseUnsupportedFormat layout).param = s.param := rfl

@[simp] theorem State.raiseUnsupportedFormat_luma (s : State) (layout : Byte) :
    (s.raiseUnsupportedFormat layout).luma = s.luma := rfl

@[simp] theorem State.raiseUnsupportedFormat_chroma (s : State) (layout : Byte) :
    (s.raiseUnsupportedFormat layout).chroma = s.chroma := rfl

@[simp] theorem State.raiseUnsupportedFormat_mode (s : State) (layout : Byte) :
    (s.raiseUnsupportedFormat layout).mode = s.mode := rfl

@[simp] theorem State.raiseUnsupportedFormat_cfgerr (s : State) (layout : Byte) :
    (s.raiseUnsupportedFormat layout).cfgerr = true := rfl

@[simp] theorem State.raiseUnsupportedFormat_geom (s : State) (layout : Byte) :
    (s.raiseUnsupportedFormat layout).geom = s.geom := rfl

@[simp] theorem State.raiseUnsupportedFormat_fault (s : State) (layout : Byte) :
    (s.raiseUnsupportedFormat layout).fault = s.fault := rfl

@[simp] theorem State.raiseUnsupportedFormat_fcode (s : State) (layout : Byte) :
    (s.raiseUnsupportedFormat layout).fcode = s.fcode := rfl

@[simp] theorem State.raiseUnsupportedFormat_ports (s : State) (layout : Byte) :
    (s.raiseUnsupportedFormat layout).ports = s.ports.modify s.port fun q => q.answered ⟨.unsupportedFormat, layout.setWidth 32⟩ := rfl

@[simp] theorem State.raiseUnsupportedFormat_mem (s : State) (layout : Byte) :
    (s.raiseUnsupportedFormat layout).mem = s.mem := rfl

@[simp] theorem State.raiseUnsupportedFormat_ledger (s : State) (layout : Byte) :
    (s.raiseUnsupportedFormat layout).ledger = s.ledger := rfl

@[simp] theorem State.raiseUnsupportedFormat_port (s : State) (layout : Byte) :
    (s.raiseUnsupportedFormat layout).port = s.port := rfl

@[simp] theorem State.raiseUnsupportedFormat_taken (s : State) (layout : Byte) :
    (s.raiseUnsupportedFormat layout).taken = s.taken := rfl

@[simp] theorem State.raiseUnsupportedFormat_env (s : State) (layout : Byte) :
    (s.raiseUnsupportedFormat layout).env = s.env := rfl

@[simp] theorem State.raiseUnsupportedFormat_busLog (s : State) (layout : Byte) :
    (s.raiseUnsupportedFormat layout).busLog = s.busLog := rfl

/-! `State.answerFaulted`. -/

@[simp] theorem State.answerFaulted_params (s : State) :
    (s.answerFaulted).params = s.params := rfl

@[simp] theorem State.answerFaulted_param (s : State) :
    (s.answerFaulted).param = s.param := rfl

@[simp] theorem State.answerFaulted_luma (s : State) :
    (s.answerFaulted).luma = s.luma := rfl

@[simp] theorem State.answerFaulted_chroma (s : State) :
    (s.answerFaulted).chroma = s.chroma := rfl

@[simp] theorem State.answerFaulted_mode (s : State) :
    (s.answerFaulted).mode = s.mode := rfl

@[simp] theorem State.answerFaulted_cfgerr (s : State) :
    (s.answerFaulted).cfgerr = s.cfgerr := rfl

@[simp] theorem State.answerFaulted_geom (s : State) :
    (s.answerFaulted).geom = s.geom := rfl

@[simp] theorem State.answerFaulted_fault (s : State) :
    (s.answerFaulted).fault = s.fault := rfl

@[simp] theorem State.answerFaulted_fcode (s : State) :
    (s.answerFaulted).fcode = s.fcode := rfl

@[simp] theorem State.answerFaulted_ports (s : State) :
    (s.answerFaulted).ports = s.ports.modify s.port fun q => q.answered ⟨.fault, s.fcode.setWidth 32⟩ := rfl

@[simp] theorem State.answerFaulted_mem (s : State) :
    (s.answerFaulted).mem = s.mem := rfl

@[simp] theorem State.answerFaulted_ledger (s : State) :
    (s.answerFaulted).ledger = s.ledger := rfl

@[simp] theorem State.answerFaulted_port (s : State) :
    (s.answerFaulted).port = s.port := rfl

@[simp] theorem State.answerFaulted_taken (s : State) :
    (s.answerFaulted).taken = s.taken := rfl

@[simp] theorem State.answerFaulted_env (s : State) :
    (s.answerFaulted).env = s.env := rfl

@[simp] theorem State.answerFaulted_busLog (s : State) :
    (s.answerFaulted).busLog = s.busLog := rfl

/-! `State.buildTables`. -/

@[simp] theorem State.buildTables_params (s : State) (v : Word) :
    (s.buildTables v).params = s.params := rfl

@[simp] theorem State.buildTables_param (s : State) (v : Word) :
    (s.buildTables v).param = s.param := rfl

@[simp] theorem State.buildTables_luma (s : State) (v : Word) :
    (s.buildTables v).luma = lumaTable := rfl

@[simp] theorem State.buildTables_chroma (s : State) (v : Word) :
    (s.buildTables v).chroma = chromaTable := rfl

@[simp] theorem State.buildTables_mode (s : State) (v : Word) :
    (s.buildTables v).mode = s.mode := rfl

@[simp] theorem State.buildTables_cfgerr (s : State) (v : Word) :
    (s.buildTables v).cfgerr = s.cfgerr := rfl

@[simp] theorem State.buildTables_geom (s : State) (v : Word) :
    (s.buildTables v).geom = s.geom := rfl

@[simp] theorem State.buildTables_fault (s : State) (v : Word) :
    (s.buildTables v).fault = s.fault := rfl

@[simp] theorem State.buildTables_fcode (s : State) (v : Word) :
    (s.buildTables v).fcode = s.fcode := rfl

@[simp] theorem State.buildTables_ports (s : State) (v : Word) :
    (s.buildTables v).ports = s.ports := rfl

@[simp] theorem State.buildTables_mem (s : State) (v : Word) :
    (s.buildTables v).mem = s.mem := rfl

@[simp] theorem State.buildTables_ledger (s : State) (v : Word) :
    (s.buildTables v).ledger = s.ledger := rfl

@[simp] theorem State.buildTables_port (s : State) (v : Word) :
    (s.buildTables v).port = s.port := rfl

@[simp] theorem State.buildTables_taken (s : State) (v : Word) :
    (s.buildTables v).taken = s.taken := rfl

@[simp] theorem State.buildTables_env (s : State) (v : Word) :
    (s.buildTables v).env = s.env := rfl

@[simp] theorem State.buildTables_busLog (s : State) (v : Word) :
    (s.buildTables v).busLog = s.busLog := rfl

/-! `State.accept`. -/

@[simp] theorem State.accept_params (s : State) (k : Nat) :
    (s.accept k).params = s.params := rfl

@[simp] theorem State.accept_param (s : State) (k : Nat) :
    (s.accept k).param = s.param := rfl

@[simp] theorem State.accept_luma (s : State) (k : Nat) :
    (s.accept k).luma = s.luma := rfl

@[simp] theorem State.accept_chroma (s : State) (k : Nat) :
    (s.accept k).chroma = s.chroma := rfl

@[simp] theorem State.accept_mode (s : State) (k : Nat) :
    (s.accept k).mode = s.mode := rfl

@[simp] theorem State.accept_cfgerr (s : State) (k : Nat) :
    (s.accept k).cfgerr = s.cfgerr := rfl

@[simp] theorem State.accept_geom (s : State) (k : Nat) :
    (s.accept k).geom = s.geom := rfl

@[simp] theorem State.accept_fault (s : State) (k : Nat) :
    (s.accept k).fault = s.fault := rfl

@[simp] theorem State.accept_fcode (s : State) (k : Nat) :
    (s.accept k).fcode = s.fcode := rfl

@[simp] theorem State.accept_ports (s : State) (k : Nat) :
    (s.accept k).ports = s.ports.modify k Port.served := rfl

@[simp] theorem State.accept_mem (s : State) (k : Nat) :
    (s.accept k).mem = s.mem := rfl

@[simp] theorem State.accept_ledger (s : State) (k : Nat) :
    (s.accept k).ledger = s.ledger.modify k fun l => l.taken (((s.front k).map s.claimOf).getD []) := rfl

@[simp] theorem State.accept_port (s : State) (k : Nat) :
    (s.accept k).port = k := rfl

@[simp] theorem State.accept_taken (s : State) (k : Nat) :
    (s.accept k).taken = s.taken + 1 := rfl

@[simp] theorem State.accept_env (s : State) (k : Nat) :
    (s.accept k).env = s.env := rfl

@[simp] theorem State.accept_busLog (s : State) (k : Nat) :
    (s.accept k).busLog = s.busLog := rfl

/-! `State.send`. -/

@[simp] theorem State.send_params (s : State) (k : Nat) (p : Packet) :
    (s.send k p).params = s.params := rfl

@[simp] theorem State.send_param (s : State) (k : Nat) (p : Packet) :
    (s.send k p).param = s.param := rfl

@[simp] theorem State.send_luma (s : State) (k : Nat) (p : Packet) :
    (s.send k p).luma = s.luma := rfl

@[simp] theorem State.send_chroma (s : State) (k : Nat) (p : Packet) :
    (s.send k p).chroma = s.chroma := rfl

@[simp] theorem State.send_mode (s : State) (k : Nat) (p : Packet) :
    (s.send k p).mode = s.mode := rfl

@[simp] theorem State.send_cfgerr (s : State) (k : Nat) (p : Packet) :
    (s.send k p).cfgerr = s.cfgerr := rfl

@[simp] theorem State.send_geom (s : State) (k : Nat) (p : Packet) :
    (s.send k p).geom = s.geom := rfl

@[simp] theorem State.send_fault (s : State) (k : Nat) (p : Packet) :
    (s.send k p).fault = s.fault := rfl

@[simp] theorem State.send_fcode (s : State) (k : Nat) (p : Packet) :
    (s.send k p).fcode = s.fcode := rfl

@[simp] theorem State.send_ports (s : State) (k : Nat) (p : Packet) :
    (s.send k p).ports = s.ports.modify k fun q => q.received p := rfl

@[simp] theorem State.send_mem (s : State) (k : Nat) (p : Packet) :
    (s.send k p).mem = s.mem := rfl

@[simp] theorem State.send_ledger (s : State) (k : Nat) (p : Packet) :
    (s.send k p).ledger = s.ledger.modify k Ledger.sent := rfl

@[simp] theorem State.send_port (s : State) (k : Nat) (p : Packet) :
    (s.send k p).port = s.port := rfl

@[simp] theorem State.send_taken (s : State) (k : Nat) (p : Packet) :
    (s.send k p).taken = s.taken := rfl

@[simp] theorem State.send_env (s : State) (k : Nat) (p : Packet) :
    (s.send k p).env = s.env := rfl

@[simp] theorem State.send_busLog (s : State) (k : Nat) (p : Packet) :
    (s.send k p).busLog = s.busLog := rfl

/-! `State.collect`. -/

@[simp] theorem State.collect_params (s : State) (k : Nat) :
    (s.collect k).params = s.params := rfl

@[simp] theorem State.collect_param (s : State) (k : Nat) :
    (s.collect k).param = s.param := rfl

@[simp] theorem State.collect_luma (s : State) (k : Nat) :
    (s.collect k).luma = s.luma := rfl

@[simp] theorem State.collect_chroma (s : State) (k : Nat) :
    (s.collect k).chroma = s.chroma := rfl

@[simp] theorem State.collect_mode (s : State) (k : Nat) :
    (s.collect k).mode = s.mode := rfl

@[simp] theorem State.collect_cfgerr (s : State) (k : Nat) :
    (s.collect k).cfgerr = s.cfgerr := rfl

@[simp] theorem State.collect_geom (s : State) (k : Nat) :
    (s.collect k).geom = s.geom := rfl

@[simp] theorem State.collect_fault (s : State) (k : Nat) :
    (s.collect k).fault = s.fault := rfl

@[simp] theorem State.collect_fcode (s : State) (k : Nat) :
    (s.collect k).fcode = s.fcode := rfl

@[simp] theorem State.collect_ports (s : State) (k : Nat) :
    (s.collect k).ports = s.ports.modify k Port.collected := rfl

@[simp] theorem State.collect_mem (s : State) (k : Nat) :
    (s.collect k).mem = s.mem := rfl

@[simp] theorem State.collect_ledger (s : State) (k : Nat) :
    (s.collect k).ledger = s.ledger.modify k Ledger.collected := rfl

@[simp] theorem State.collect_port (s : State) (k : Nat) :
    (s.collect k).port = s.port := rfl

@[simp] theorem State.collect_taken (s : State) (k : Nat) :
    (s.collect k).taken = s.taken := rfl

@[simp] theorem State.collect_env (s : State) (k : Nat) :
    (s.collect k).env = s.env := rfl

@[simp] theorem State.collect_busLog (s : State) (k : Nat) :
    (s.collect k).busLog = s.busLog := rfl

/-! `State.noteAccess`. -/

@[simp] theorem State.noteAccess_params (s : State) (a : Nat) :
    (s.noteAccess a).params = s.params := rfl

@[simp] theorem State.noteAccess_param (s : State) (a : Nat) :
    (s.noteAccess a).param = s.param := rfl

@[simp] theorem State.noteAccess_luma (s : State) (a : Nat) :
    (s.noteAccess a).luma = s.luma := rfl

@[simp] theorem State.noteAccess_chroma (s : State) (a : Nat) :
    (s.noteAccess a).chroma = s.chroma := rfl

@[simp] theorem State.noteAccess_mode (s : State) (a : Nat) :
    (s.noteAccess a).mode = s.mode := rfl

@[simp] theorem State.noteAccess_cfgerr (s : State) (a : Nat) :
    (s.noteAccess a).cfgerr = s.cfgerr := rfl

@[simp] theorem State.noteAccess_geom (s : State) (a : Nat) :
    (s.noteAccess a).geom = s.geom := rfl

@[simp] theorem State.noteAccess_fault (s : State) (a : Nat) :
    (s.noteAccess a).fault = s.fault := rfl

@[simp] theorem State.noteAccess_fcode (s : State) (a : Nat) :
    (s.noteAccess a).fcode = s.fcode := rfl

@[simp] theorem State.noteAccess_ports (s : State) (a : Nat) :
    (s.noteAccess a).ports = s.ports := rfl

@[simp] theorem State.noteAccess_mem (s : State) (a : Nat) :
    (s.noteAccess a).mem = s.mem := rfl

@[simp] theorem State.noteAccess_ledger (s : State) (a : Nat) :
    (s.noteAccess a).ledger = s.ledger.map fun l => l.accessed a := rfl

@[simp] theorem State.noteAccess_port (s : State) (a : Nat) :
    (s.noteAccess a).port = s.port := rfl

@[simp] theorem State.noteAccess_taken (s : State) (a : Nat) :
    (s.noteAccess a).taken = s.taken := rfl

@[simp] theorem State.noteAccess_env (s : State) (a : Nat) :
    (s.noteAccess a).env = s.env := rfl

@[simp] theorem State.noteAccess_busLog (s : State) (a : Nat) :
    (s.noteAccess a).busLog = s.busLog := rfl

/-! `State.applyReset`. -/

@[simp] theorem State.applyReset_params (s : State) :
    (s.applyReset).params = s.params := rfl

@[simp] theorem State.applyReset_param (s : State) :
    (s.applyReset).param = paramResetBits := rfl

@[simp] theorem State.applyReset_luma (s : State) :
    (s.applyReset).luma = lumaTable := rfl

@[simp] theorem State.applyReset_chroma (s : State) :
    (s.applyReset).chroma = chromaTable := rfl

@[simp] theorem State.applyReset_mode (s : State) :
    (s.applyReset).mode = .unconfigured := rfl

@[simp] theorem State.applyReset_cfgerr (s : State) :
    (s.applyReset).cfgerr = false := rfl

@[simp] theorem State.applyReset_geom (s : State) :
    (s.applyReset).geom = geometryZero := rfl

@[simp] theorem State.applyReset_fault (s : State) :
    (s.applyReset).fault = false := rfl

@[simp] theorem State.applyReset_fcode (s : State) :
    (s.applyReset).fcode = 0#2 := rfl

@[simp] theorem State.applyReset_ports (s : State) :
    (s.applyReset).ports = List.replicate s.params.nport emptyPort := rfl

@[simp] theorem State.applyReset_mem (s : State) :
    (s.applyReset).mem = s.mem := rfl

@[simp] theorem State.applyReset_ledger (s : State) :
    (s.applyReset).ledger = List.replicate s.params.nport emptyLedger := rfl

@[simp] theorem State.applyReset_port (s : State) :
    (s.applyReset).port = 0 := rfl

@[simp] theorem State.applyReset_taken (s : State) :
    (s.applyReset).taken = s.taken := rfl

@[simp] theorem State.applyReset_env (s : State) :
    (s.applyReset).env = s.env := rfl

@[simp] theorem State.applyReset_busLog (s : State) :
    (s.applyReset).busLog = s.busLog := rfl

/-! `State.withFetchWord`. -/

@[simp] theorem State.withFetchWord_params (s : State) (nbits w : Nat) :
    (s.withFetchWord nbits w).params = s.params := rfl

@[simp] theorem State.withFetchWord_param (s : State) (nbits w : Nat) :
    (s.withFetchWord nbits w).param = s.param := rfl

@[simp] theorem State.withFetchWord_luma (s : State) (nbits w : Nat) :
    (s.withFetchWord nbits w).luma = s.luma := rfl

@[simp] theorem State.withFetchWord_chroma (s : State) (nbits w : Nat) :
    (s.withFetchWord nbits w).chroma = s.chroma := rfl

@[simp] theorem State.withFetchWord_mode (s : State) (nbits w : Nat) :
    (s.withFetchWord nbits w).mode = s.mode := rfl

@[simp] theorem State.withFetchWord_cfgerr (s : State) (nbits w : Nat) :
    (s.withFetchWord nbits w).cfgerr = s.cfgerr := rfl

@[simp] theorem State.withFetchWord_geom (s : State) (nbits w : Nat) :
    (s.withFetchWord nbits w).geom = s.geom := rfl

@[simp] theorem State.withFetchWord_fault (s : State) (nbits w : Nat) :
    (s.withFetchWord nbits w).fault = s.fault := rfl

@[simp] theorem State.withFetchWord_fcode (s : State) (nbits w : Nat) :
    (s.withFetchWord nbits w).fcode = s.fcode := rfl

@[simp] theorem State.withFetchWord_ports (s : State) (nbits w : Nat) :
    (s.withFetchWord nbits w).ports = withPacketFirst (packetOfBits nbits w) s.ports := rfl

@[simp] theorem State.withFetchWord_mem (s : State) (nbits w : Nat) :
    (s.withFetchWord nbits w).mem = s.mem := rfl

@[simp] theorem State.withFetchWord_ledger (s : State) (nbits w : Nat) :
    (s.withFetchWord nbits w).ledger = withLedgerFirst s.ledger := rfl

@[simp] theorem State.withFetchWord_port (s : State) (nbits w : Nat) :
    (s.withFetchWord nbits w).port = s.port := rfl

@[simp] theorem State.withFetchWord_taken (s : State) (nbits w : Nat) :
    (s.withFetchWord nbits w).taken = s.taken := rfl

@[simp] theorem State.withFetchWord_env (s : State) (nbits w : Nat) :
    (s.withFetchWord nbits w).env = .take 0 :: s.env := rfl

@[simp] theorem State.withFetchWord_busLog (s : State) (nbits w : Nat) :
    (s.withFetchWord nbits w).busLog = s.busLog := rfl

end Sys2Proof.Machine
end

