-- ==== Sys2Proof/Laws/Exec.lean ====
section
/-! SUPPORT. Everything a command can do, said once: the cases of `exec` that answer a next state, and where it stops. -/

namespace Sys2Proof.Machine

/-- `SelectStrategy` answers a strategy for the three codes of R54 and for no other. -/
theorem selectStrategy_eq_some {layout : Byte} {m : Mode} (h : selectStrategy layout = some m) :
    (layout = 1#8 ∧ m = .planar) ∨ (layout = 2#8 ∧ m = .packedYUV) ∨ (layout = 3#8 ∧ m = .packedRGB) := by
  unfold selectStrategy at h
  split at h
  · rename_i h1; cases h; exact .inl ⟨h1, rfl⟩
  · split at h
    · rename_i h2; cases h; exact .inr (.inl ⟨h2, rfl⟩)
    · split at h
      · rename_i h3; cases h; exact .inr (.inr ⟨h3, rfl⟩)
      · cases h

/-- No strategy is `Unconfigured` (R13). -/
theorem selectStrategy_ne_unconfigured {layout : Byte} {m : Mode} (h : selectStrategy layout = some m) :
    m ≠ .unconfigured := by
  rcases selectStrategy_eq_some h with ⟨-, rfl⟩ | ⟨-, rfl⟩ | ⟨-, rfl⟩ <;> decide

/-- What a command that answers a next state has done: its own fault entry, or its effect and one response. -/
inductive ExecEffect (s : State) : Instr → State → Prop where
  | setparam (v : Word) (h : paramLegal v = true) :
    ExecEffect s (.setparam v) (({ s with param := v }.buildTables v).respond .ok 0#32)
  | setparamRange (v : Word) (h : paramLegal v = false) : ExecEffect s (.setparam v) (s.raiseFault .paramRange)
  | getparam : ExecEffect s .getparam (s.respond .ok s.param)
  | configure (d : Descriptor) (m : Mode) (h : selectStrategy d.layout = some m) :
    ExecEffect s (.configure d) ({ s with mode := m, geom := d.geom, cfgerr := false }.respond .ok 0#32)
  | configureUnsupported (d : Descriptor) (h : selectStrategy d.layout = none) :
    ExecEffect s (.configure d) (s.raiseUnsupportedFormat d.layout)
  | processNotConfigured (base : Word) (h : s.notConfigured = true) :
    ExecEffect s (.process base) (s.raiseFault .notConfigured)
  | process (base : Word) (pm : Pixel × Memory) (hc : s.notConfigured = false)
      (h : s.runAccesses (s.frameAccesses base) Pixel.blank s.mem = .ok pm) :
    ExecEffect s (.process base)
      ({ s with mem := pm.2, busLog := s.busLog ++ (s.frameAccesses base).map Access.event }.respond .ok 0#32)

/-- The inversion lemma of `exec`: a next state is one of the effects of R74, R75, R81, R90. -/
theorem exec_effect {i : Instr} {s t : State} (h : exec i s = .next t) : ExecEffect s i t := by
  cases i with
  | setparam v =>
    simp only [exec, execSetparam] at h
    split at h
    · rename_i hv; cases h; exact .setparam v hv
    · rename_i hv; cases h; exact .setparamRange v (by simpa using hv)
  | getparam => cases h; exact .getparam
  | configure d =>
    simp only [exec, execConfigure] at h
    split at h
    · rename_i hd; cases h; exact .configureUnsupported d hd
    · rename_i m hd; cases h; exact .configure d m hd
  | process base =>
    simp only [exec, execProcess] at h
    split at h
    · rename_i hc; cases h; exact .processNotConfigured base hc
    · rename_i hc
      split at h
      · rename_i u hu
        cases h
        obtain ⟨pm, hpm, rfl⟩ := State.makeAccesses_ok hu
        exact .process base pm (by simpa using hc) hpm
      · cases h

/-- No command is refused (every row of the opcode table has its meaning). -/
theorem exec_not_refused (i : Instr) (s : State) (r : Refusal) : exec i s ≠ .refused r := by
  cases i with
  | setparam v => simp only [exec, execSetparam]; split <;> simp
  | getparam => simp [exec, execGetparam]
  | configure d => simp only [exec, execConfigure]; split <;> simp
  | process base =>
    simp only [exec, execProcess]
    split
    · simp
    · split <;> simp

/-- The one stop: a `PROCESS` with a configuration in force, at a footprint byte that memory does not provide. -/
theorem exec_fault {i : Instr} {s : State} {f : Fault} (h : exec i s = .fault f) :
    ∃ base a, i = .process base ∧ s.notConfigured = false ∧ f = .memoryNotProvided a ∧ a ∈ s.footprint base ∧
      Memory.read s.mem a = none := by
  cases i with
  | setparam v => simp only [exec, execSetparam] at h; split at h <;> cases h
  | getparam => cases h
  | configure d => simp only [exec, execConfigure] at h; split at h <;> cases h
  | process base =>
    simp only [exec, execProcess] at h
    split at h
    · cases h
    · rename_i hc
      split at h
      · cases h
      · rename_i a ha
        cases h
        obtain ⟨h1, h2⟩ := State.runAccesses_stuck (State.makeAccesses_error ha)
        exact ⟨base, a, rfl, by simpa using hc, rfl, (State.frameAccesses_addr s base a).1 h1, h2⟩

end Sys2Proof.Machine
end

