-- ==== Sys2Proof/Laws/Ports.lean ====
section
/-! SUPPORT. What the port operations do to each port's queue of packets, to its responses and to its ledger, and when a host
has touched the frame of a waiting packet. -/

namespace Sys2Proof.Machine

@[simp] theorem Port.answered_packets (q : Port) (r : Response) : (q.answered r).packets = q.packets := rfl
@[simp] theorem Port.answered_responses (q : Port) (r : Response) : (q.answered r).responses = q.responses ++ [r] := rfl
@[simp] theorem Port.served_packets (q : Port) : q.served.packets = q.packets.tail := rfl
@[simp] theorem Port.served_responses (q : Port) : q.served.responses = q.responses := rfl
@[simp] theorem Port.received_packets (q : Port) (p : Packet) : (q.received p).packets = q.packets ++ [p] := rfl
@[simp] theorem Port.received_responses (q : Port) (p : Packet) : (q.received p).responses = q.responses := rfl
@[simp] theorem Port.collected_packets (q : Port) : q.collected.packets = q.packets := rfl
@[simp] theorem Port.collected_responses (q : Port) : q.collected.responses = q.responses.tail := rfl

@[simp] theorem Ledger.sent_touched (l : Ledger) : l.sent.touched = l.touched ++ [[]] := rfl
@[simp] theorem Ledger.sent_owned (l : Ledger) : l.sent.owned = l.owned := rfl
@[simp] theorem Ledger.taken_touched (l : Ledger) (claim : List Nat) : (l.taken claim).touched = l.touched.tail := rfl
@[simp] theorem Ledger.taken_owned (l : Ledger) (claim : List Nat) : (l.taken claim).owned = l.owned ++ [claim] := rfl
@[simp] theorem Ledger.collected_touched (l : Ledger) : l.collected.touched = l.touched := rfl
@[simp] theorem Ledger.collected_owned (l : Ledger) : l.collected.owned = l.owned.tail := rfl
@[simp] theorem Ledger.accessed_touched (l : Ledger) (a : Nat) :
    (l.accessed a).touched = l.touched.map (a :: ·) := rfl
@[simp] theorem Ledger.accessed_owned (l : Ledger) (a : Nat) : (l.accessed a).owned = l.owned := rfl

/-- A byte the block owns is in the frame of a response that some host has not collected. -/
theorem State.owns_iff {s : State} {a : Nat} : s.owns a = true ↔ ∃ l ∈ s.ledger, ∃ o ∈ l.owned, a ∈ o := by
  simp [State.owns]

/-- A race names a byte of the frame that a host has touched since the packet was sent. -/
theorem State.raced_eq_some {s : State} {k a : Nat} {p : Packet} (h : s.raced k p = some a) :
    a ∈ s.claimOf p ∧ a ∈ s.touchedSince k :=
  ⟨List.mem_of_find?_eq_some h, by simpa using List.find?_some h⟩

/-- There is no race exactly where no host has touched a byte of the frame since the packet was sent. -/
theorem State.raced_eq_none {s : State} {k : Nat} {p : Packet} :
    s.raced k p = none ↔ ∀ a ∈ s.claimOf p, a ∉ s.touchedSince k := by
  simp [State.raced]

/-- A packet that is no running `PROCESS` makes no byte the block's (R30, R123, R124). -/
theorem State.claimOf_eq_nil {s : State} {p : Packet}
    (h : s.fault = true ∨ (∀ base, decodePacket p ≠ .ok (.process base)) ∨ s.notConfigured = true) :
    s.claimOf p = [] := by
  unfold State.claimOf
  split
  · rfl
  · rename_i hf
    split <;> try rfl
    rename_i base hd
    rcases h with h | h | h
    · exact absurd h hf
    · exact absurd hd (h base)
    · rw [if_pos h]

/-- A `PROCESS` that runs makes its footprint the block's (R38). -/
theorem State.claimOf_process {s : State} {p : Packet} {base : Word} (hf : s.fault = false)
    (hd : decodePacket p = .ok (.process base)) (hc : s.notConfigured = false) : s.claimOf p = s.footprint base := by
  simp [State.claimOf, hf, hd, hc]

/-- Port `k` after an operation on port `j`. -/
theorem getElem?_modify_port (ports : List Port) (f : Port → Port) (j k : Nat) :
    (ports.modify j f)[k]? = (ports[k]?).map fun q => if j = k then f q else q := by
  rw [List.getElem?_modify]
  by_cases h : j = k
  · subst h; simp
  · simp [h]

/-- A port with a packet waiting exists. -/
theorem State.lt_of_front {s : State} {k : Nat} {p : Packet} (h : s.front k = some p) : k < s.ports.length := by
  by_contra hk
  simp [State.front, List.getElem?_eq_none (by omega : s.ports.length ≤ k)] at h

/-- The waiting ports are those whose queue has a front. -/
theorem State.mem_waiting {s : State} {k : Nat} : k ∈ s.waiting ↔ (s.front k).isSome = true := by
  refine ⟨fun h => (List.mem_filter.1 h).2, fun h => List.mem_filter.2 ⟨?_, h⟩⟩
  obtain ⟨p, hp⟩ := Option.isSome_iff_exists.1 h
  exact List.mem_range.2 (State.lt_of_front hp)

/-- The arbiter answers a port that has a packet waiting, and answers one whenever some port has. -/
theorem State.arbitrate_spec (s : State) :
    (s.arbitrate = none ∧ s.waiting = []) ∨ ∃ k, s.arbitrate = some k ∧ k ∈ s.waiting := by
  unfold State.arbitrate
  split
  · rename_i h; exact .inl ⟨rfl, h⟩
  · rename_i k h; exact .inr ⟨k, rfl, by simp [h]⟩
  · rename_i k l ks h
    refine .inr ?_
    have hlt : Config.arbiter s.taken % (ks.length + 2) < (k :: l :: ks).length := Nat.mod_lt _ (by simp)
    refine ⟨(k :: l :: ks)[Config.arbiter s.taken % (ks.length + 2)], List.getElem?_eq_getElem hlt, ?_⟩
    rw [h]
    exact List.getElem_mem hlt

end Sys2Proof.Machine
end

