-- ==== Sys2Proof/Laws/Step.lean ====
section
/-! SUPPORT. Everything one step can do, said once: the inversion lemma of `step` and of the operations it calls. -/

namespace Sys2Proof.Machine

/-- What a packet that answers a next state has done (R23, R125). -/
inductive PacketEffect (s : State) (p : Packet) : State → Prop where
  | faulted (h : s.fault = true) : PacketEffect s p s.answerFaulted
  | illegal (h : s.fault = false) (e : IllegalPacket) (hd : decodePacket p = .error e) :
    PacketEffect s p (s.raiseFault .illegalCommand)
  | command (h : s.fault = false) (i : Instr) (hd : decodePacket p = .ok i) (t : State) (he : ExecEffect s i t) :
    PacketEffect s p t

theorem runPacket_effect {p : Packet} {s t : State} (h : runPacket p s = .next t) : PacketEffect s p t := by
  simp only [runPacket] at h
  split at h
  · rename_i hf; cases h; exact .faulted hf
  · rename_i hf
    split at h
    · rename_i e he; cases h; exact .illegal (by simpa using hf) e he
    · rename_i i hi; exact .command (by simpa using hf) i hi t (exec_effect h)

/-- What a command cut short by reset has left: the reset state over a prefix of the accesses of a `PROCESS` that would
have run, and over nothing for every other packet (R142). -/
inductive CutEffect (n : Nat) (s : State) (p : Packet) : State → Prop where
  | noAccess : CutEffect n s p s.applyReset
  | process (base : Word) (pm : Pixel × Memory) (hf : s.fault = false) (hd : decodePacket p = .ok (.process base))
      (hc : s.notConfigured = false)
      (h : s.runAccesses ((s.frameAccesses base).take n) Pixel.blank s.mem = .ok pm) :
    CutEffect n s p
      { s with mem := pm.2, busLog := s.busLog ++ ((s.frameAccesses base).take n).map Access.event }.applyReset

theorem cutPacket_effect {n : Nat} {p : Packet} {s t : State} (h : cutPacket n p s = .next t) : CutEffect n s p t := by
  simp only [cutPacket] at h
  split at h
  · cases h; exact .noAccess
  · rename_i hf
    split at h
    · cases h; exact .noAccess
    · rename_i i hi
      cases i with
      | setparam v => cases h; exact .noAccess
      | getparam => cases h; exact .noAccess
      | configure d => cases h; exact .noAccess
      | process base =>
        simp only [abandon] at h
        split at h
        · cases h; exact .noAccess
        · rename_i hc
          split at h
          · rename_i u hu
            cases h
            obtain ⟨pm, hpm, rfl⟩ := State.makeAccesses_ok hu
            exact .process base pm (by simpa using hf) hi (by simpa using hc) hpm
          · cases h

/-- A packet cut short by reset that would have made no access leaves the reset state alone (R142). -/
theorem cutPacket_noAccess {n : Nat} {p : Packet} {s : State}
    (h : s.fault = true ∨ (∀ base, decodePacket p ≠ .ok (.process base)) ∨ s.notConfigured = true) :
    cutPacket n p s = .next s.applyReset := by
  unfold cutPacket
  split
  · rfl
  · rename_i hf
    split
    · rfl
    · rename_i i hi
      cases i with
      | setparam v => rfl
      | getparam => rfl
      | configure d => rfl
      | process base =>
        have hc : s.notConfigured = true := by
          rcases h with h | h | h
          · exact absurd h hf
          · exact absurd hi (h base)
          · exact h
        simp only [abandon, hc, if_true]

/-- A `PROCESS` cut short by reset after `n` accesses has made exactly those (R142). -/
theorem cutPacket_process {n : Nat} {p : Packet} {s : State} {base : Word} (hf : s.fault = false)
    (hd : decodePacket p = .ok (.process base)) (hc : s.notConfigured = false) :
    cutPacket n p s =
      match s.runAccesses ((s.frameAccesses base).take n) Pixel.blank s.mem with
      | .ok pm =>
        .next { s with mem := pm.2,
                       busLog := s.busLog ++ ((s.frameAccesses base).take n).map Access.event }.applyReset
      | .error a => .fault (.memoryNotProvided a) := by
  simp only [cutPacket, hf, hd, abandon, hc, State.makeAccesses]
  cases s.runAccesses ((s.frameAccesses base).take n) Pixel.blank s.mem <;> rfl

/-- Everything a step that answers a next state can do (R21, R23, R140, R142). -/
inductive StepEffect (s : State) : State → Prop where
  /-- No event and no packet: the block waits. -/
  | wait (he : s.env = []) (hw : s.waiting = []) : StepEffect s s
  /-- No event: the arbiter's port is served. -/
  | serve (he : s.env = []) (k : Nat) (p : Packet) (hk : s.arbitrate = some k) (hp : s.front k = some p)
      (hr : s.raced k p = none) (t : State) (ht : PacketEffect (s.accept k) p t) : StepEffect s t
  | take (k : Nat) (rest : List Event) (he : s.env = .take k :: rest) (p : Packet) (hp : s.front k = some p)
      (hr : s.raced k p = none) (t : State) (ht : PacketEffect ({ s with env := rest }.accept k) p t) : StepEffect s t
  | takeNone (k : Nat) (rest : List Event) (he : s.env = .take k :: rest) (hp : s.front k = none) :
    StepEffect s { s with env := rest }
  | send (k : Nat) (p : Packet) (rest : List Event) (he : s.env = .send k p :: rest) :
    StepEffect s ({ s with env := rest }.send k p)
  | collect (k : Nat) (rest : List Event) (he : s.env = .collect k :: rest) :
    StepEffect s ({ s with env := rest }.collect k)
  | reset (rest : List Event) (he : s.env = .reset :: rest) : StepEffect s { s with env := rest }.applyReset
  | cut (k n : Nat) (rest : List Event) (he : s.env = .cut k n :: rest) (p : Packet) (hp : s.front k = some p)
      (hr : s.raced k p = none) (t : State) (ht : CutEffect n ({ s with env := rest }.accept k) p t) : StepEffect s t
  | cutNone (k n : Nat) (rest : List Event) (he : s.env = .cut k n :: rest) (hp : s.front k = none) :
    StepEffect s { s with env := rest }.applyReset
  | store (a : Nat) (v : Byte) (rest : List Event) (he : s.env = .store a v :: rest) (ha : a < 2 ^ s.params.aw)
      (ho : s.owns a = false) :
    StepEffect s ({ s with env := rest, mem := Memory.write s.mem a v }.noteAccess a)
  | load (a : Nat) (rest : List Event) (he : s.env = .load a :: rest) (ha : a < 2 ^ s.params.aw) (ho : s.owns a = false) :
    StepEffect s ({ s with env := rest }.noteAccess a)

/-- The events of `env` do not touch what waits on the ports. -/
@[simp] theorem State.front_env (s : State) (rest : List Event) (k : Nat) :
    State.front { s with env := rest } k = s.front k := rfl

/-- Nor do they decide whether a host has touched the frame of a waiting packet. -/
@[simp] theorem State.raced_env (s : State) (rest : List Event) (k : Nat) (p : Packet) :
    State.raced { s with env := rest } k p = s.raced k p := rfl

/-- A step whose event takes from a port with a packet waiting (R21, R23, R38). -/
theorem step_take {s : State} {k : Nat} {rest : List Event} {p : Packet} (he : s.env = .take k :: rest)
    (hp : s.front k = some p) :
    step s =
      match s.raced k p with
      | some a => .fault (.frameRace a)
      | none => runPacket p ({ s with env := rest }.accept k) := by
  cases hr : s.raced k p <;> simp only [step, he, perform, takeFrom, State.front_env, State.raced_env, hp, hr]

/-- A step whose event cuts the packet waiting on a port short by reset (R142, R38). -/
theorem step_cut {s : State} {k n : Nat} {rest : List Event} {p : Packet} (he : s.env = .cut k n :: rest)
    (hp : s.front k = some p) :
    step s =
      match s.raced k p with
      | some a => .fault (.frameRace a)
      | none => cutPacket n p ({ s with env := rest }.accept k) := by
  cases hr : s.raced k p <;> simp only [step, he, perform, cutFrom, State.front_env, State.raced_env, hp, hr]

/-- Everything a host's access to frame memory can do (R38). -/
theorem hostAccess_ok {a : Nat} {s t : State} (h : hostAccess a s = .next t) :
    a < 2 ^ s.params.aw ∧ s.owns a = false ∧ t = s.noteAccess a := by
  unfold hostAccess at h
  split at h
  · cases h
  · rename_i ha
    split at h
    · cases h
    · rename_i ho
      cases h
      exact ⟨Nat.lt_of_not_le ha, by simpa using ho, rfl⟩

/-- The inversion lemma of `step`. -/
theorem step_effect {s t : State} (h : step s = .next t) : StepEffect s t := by
  simp only [step] at h
  split at h
  · rename_i he
    simp only [serve] at h
    rcases s.arbitrate_spec with ⟨ha, hw⟩ | ⟨k, ha, hk⟩
    · simp only [ha] at h; cases h; exact .wait he hw
    · obtain ⟨p, hp⟩ := Option.isSome_iff_exists.1 (State.mem_waiting.1 hk)
      simp only [ha, takeFrom, hp] at h
      cases hr : s.raced k p with
      | some a => simp only [hr] at h; cases h
      | none => simp only [hr] at h; exact .serve he k p ha hp hr t (runPacket_effect h)
  · rename_i e rest he
    cases e with
    | take k =>
      simp only [perform, takeFrom, State.front_env, State.raced_env] at h
      cases hp : s.front k with
      | none => simp only [hp] at h; cases h; exact .takeNone k rest he hp
      | some p =>
        cases hr : s.raced k p with
        | some a => simp only [hp, hr] at h; cases h
        | none => simp only [hp, hr] at h; exact .take k rest he p hp hr t (runPacket_effect h)
    | send k p => cases h; exact .send k p rest he
    | collect k => cases h; exact .collect k rest he
    | reset => cases h; exact .reset rest he
    | cut k n =>
      simp only [perform, cutFrom, State.front_env, State.raced_env] at h
      cases hp : s.front k with
      | none => simp only [hp] at h; cases h; exact .cutNone k n rest he hp
      | some p =>
        cases hr : s.raced k p with
        | some a => simp only [hp, hr] at h; cases h
        | none => simp only [hp, hr] at h; exact .cut k n rest he p hp hr t (cutPacket_effect h)
    | store a v =>
      obtain ⟨ha, ho, rfl⟩ := hostAccess_ok h
      exact .store a v rest he ha ho
    | load a =>
      obtain ⟨ha, ho, rfl⟩ := hostAccess_ok h
      exact .load a rest he ha ho

end Sys2Proof.Machine
end

