-- ==== Sys2Proof/Laws/Duties.lean ====
section
/-! SUPPORT. What the launch premises of 10_state.md R25 are for: hosts that keep the duties of 70_reset_and_hazards.md R143
to R146 never see the run stop and never raise `NOT_CONFIGURED`. -/

namespace Sys2Proof.Machine

/-! ### The ledgers match the ports -/

/-- An operation on a port and one on its ledger that keep their lengths equal keep the whole lists matched. -/
theorem ledgerMatches_modify {ls : List Ledger} {ps : List Port} {f : Ledger → Ledger} {g : Port → Port} {k : Nat}
    (h : ls.map (fun l => (l.touched.length, l.owned.length)) =
      ps.map fun q => (q.packets.length, q.responses.length))
    (hfg : ∀ l q, l.touched.length = q.packets.length → l.owned.length = q.responses.length →
      (f l).touched.length = (g q).packets.length ∧ (f l).owned.length = (g q).responses.length) :
    (ls.modify k f).map (fun l => (l.touched.length, l.owned.length)) =
      (ps.modify k g).map fun q => (q.packets.length, q.responses.length) := by
  apply List.ext_getElem?
  intro j
  have hj := congrArg (fun x => x[j]?) h
  simp only [List.getElem?_map, List.getElem?_modify] at hj ⊢
  by_cases hk : k = j
  · subst hk
    cases h1 : ls[k]? with
    | none => cases h2 : ps[k]? <;> simp_all
    | some l =>
      cases h2 : ps[k]? with
      | none => simp [h1, h2] at hj
      | some q =>
        simp only [h1, h2, Option.map_some, Option.some.injEq, Prod.mk.injEq] at hj
        simp [hfg l q hj.1 hj.2]
  · cases h1 : ls[j]? <;> cases h2 : ps[j]? <;> simp_all

/-- What every packet taken does beside its own effect: one response, the ledgers and the events as they were, bytes
provided still provided, and the configuration as it was but for a `CONFIGURE` (R22, R57, R82). -/
theorem PacketEffect.outline {s t : State} {p : Packet} (h : PacketEffect s p t) :
    (∃ r, t.ports = s.ports.modify s.port fun q => q.answered r) ∧ t.ledger = s.ledger ∧ t.env = s.env ∧
      t.params = s.params ∧ (∀ a, (Memory.read s.mem a).isSome = true → (Memory.read t.mem a).isSome = true) ∧
      ((∃ d, decodePacket p = .ok (.configure d)) ∨ (t.mode = s.mode ∧ t.geom = s.geom ∧ t.cfgerr = s.cfgerr)) := by
  cases h with
  | faulted => exact ⟨⟨_, rfl⟩, rfl, rfl, rfl, fun _ h => h, .inr ⟨rfl, rfl, rfl⟩⟩
  | illegal => exact ⟨⟨_, rfl⟩, rfl, rfl, rfl, fun _ h => h, .inr ⟨rfl, rfl, rfl⟩⟩
  | command _ i hd _ he =>
    cases he with
    | setparam => exact ⟨⟨_, rfl⟩, rfl, rfl, rfl, fun _ h => h, .inr ⟨rfl, rfl, rfl⟩⟩
    | setparamRange => exact ⟨⟨_, rfl⟩, rfl, rfl, rfl, fun _ h => h, .inr ⟨rfl, rfl, rfl⟩⟩
    | getparam => exact ⟨⟨_, rfl⟩, rfl, rfl, rfl, fun _ h => h, .inr ⟨rfl, rfl, rfl⟩⟩
    | configure d => exact ⟨⟨_, rfl⟩, rfl, rfl, rfl, fun _ h => h, .inl ⟨d, hd⟩⟩
    | configureUnsupported d => exact ⟨⟨_, rfl⟩, rfl, rfl, rfl, fun _ h => h, .inl ⟨d, hd⟩⟩
    | processNotConfigured => exact ⟨⟨_, rfl⟩, rfl, rfl, rfl, fun _ h => h, .inr ⟨rfl, rfl, rfl⟩⟩
    | process base pm hc hr =>
      exact ⟨⟨_, rfl⟩, rfl, rfl, rfl, fun _ h => State.runAccesses_provided hr h, .inr ⟨rfl, rfl, rfl⟩⟩

theorem CutEffect.outline {n : Nat} {s t : State} {p : Packet} (h : CutEffect n s p t) :
    t.ports = List.replicate s.params.nport emptyPort ∧ t.ledger = List.replicate s.params.nport emptyLedger ∧
      t.env = s.env := by
  cases h <;> exact ⟨rfl, rfl, rfl⟩

/-- A packet taken and answered keeps the ledgers matched to the ports. -/
theorem taken_matches {s t : State} {k : Nat} {p : Packet} (h : s.ledgerMatches)
    (ht : PacketEffect (s.accept k) p t) : t.ledgerMatches := by
  obtain ⟨⟨r, hr⟩, hl, -⟩ := ht.outline
  simp only [State.ledgerMatches, hr, hl, State.accept_ports, State.accept_ledger, State.accept_port,
    List.modify_modify_eq]
  refine ledgerMatches_modify h fun l q h1 h2 => ?_
  simp only [Ledger.taken, Function.comp_apply, Port.answered, Port.served, List.length_tail, List.length_append,
    List.length_singleton]
  omega

/-- Reset leaves ports and ledgers alike empty. -/
theorem State.applyReset_ledgerMatches (s : State) : s.applyReset.ledgerMatches := by
  simp [State.ledgerMatches, emptyLedger, emptyPort]

/-- Every step keeps the ledgers matched to the ports. -/
theorem step_ledgerMatches {s t : State} (h : s.ledgerMatches) (hs : step s = .next t) : t.ledgerMatches := by
  cases step_effect hs with
  | wait => exact h
  | serve he k p hk hp hr _ ht => exact taken_matches h ht
  | take k rest he p hp hr _ ht => exact taken_matches (s := { s with env := rest }) h ht
  | takeNone => exact h
  | send k p rest he => exact ledgerMatches_modify h fun l q h1 h2 => by simp [Port.received, Ledger.sent, h1, h2]
  | collect k rest he =>
    exact ledgerMatches_modify h fun l q h1 h2 => by simp [Port.collected, Ledger.collected, h1, h2]
  | reset => exact State.applyReset_ledgerMatches _
  | cutNone => exact State.applyReset_ledgerMatches _
  | cut k n rest he p hp hr _ ht => cases ht <;> exact State.applyReset_ledgerMatches _
  | store a v rest => simpa [State.ledgerMatches, Function.comp_def] using h
  | load a rest => simpa [State.ledgerMatches, Function.comp_def] using h

/-! ### Packets by port and place -/

/-- The places of the packets after the oldest of port `k` was taken and answered. -/
theorem packetAt_answered {s t : State} {k : Nat} {r : Response}
    (h : t.ports = (s.ports.modify k Port.served).modify k fun q => q.answered r) (j i : Nat) :
    t.packetAt j i = s.packetAt j (if j = k then i + 1 else i) := by
  simp only [State.packetAt, h, getElem?_modify_port]
  by_cases hj : k = j
  · subst hj; cases s.ports[k]? <;> simp [Port.answered, Port.served]
  · simp only [if_neg hj, if_neg (Ne.symm hj)]; cases s.ports[j]? <;> rfl

/-- The places of the ledger entries after the oldest of port `k` was taken. -/
theorem touchedAt_taken {s t : State} {k : Nat} {claim : List Nat}
    (h : t.ledger = s.ledger.modify k fun l => l.taken claim) (j i : Nat) :
    t.touchedAt j i = s.touchedAt j (if j = k then i + 1 else i) := by
  simp only [State.touchedAt, h, List.getElem?_modify]
  by_cases hj : k = j
  · subst hj; cases s.ledger[k]? <;> simp [Ledger.taken]
  · simp only [if_neg hj, if_neg (Ne.symm hj)]; cases s.ledger[j]? <;> rfl

/-- The oldest packet is the 0th. -/
theorem State.packetAt_zero (s : State) (k : Nat) : s.packetAt k 0 = s.front k := by
  simp only [State.packetAt, State.front]
  cases s.ports[k]? <;> simp [List.head?_eq_getElem?]

/-- The entry of the oldest packet is the 0th. -/
theorem State.touchedSince_eq (s : State) (k : Nat) : s.touchedSince k = (s.touchedAt k 0).getD [] := by
  simp only [State.touchedSince, State.touchedAt]
  cases s.ledger[k]? <;> simp [List.head?_eq_getElem?]

/-- No packet has a place on a port list all of whose queues are empty. -/
theorem State.packetAt_emptyPorts {s : State} {n : Nat} (h : s.ports = List.replicate n emptyPort) (k i : Nat) :
    s.packetAt k i = none := by
  simp only [State.packetAt, h, List.getElem?_replicate]
  split <;> simp [emptyPort]

/-- A place after one more packet on port `k` is a place from before, or that of the new packet, behind all of port
`k`. -/
theorem packetAt_send {s : State} {k : Nat} {p p' : Packet} {j i : Nat} (h : (s.send k p).packetAt j i = some p') :
    s.packetAt j i = some p' ∨
      (j = k ∧ p' = p ∧ (∃ q, s.ports[k]? = some q ∧ i = q.packets.length) ∧
        ∀ i' p'', s.packetAt k i' = some p'' → i' < i) := by
  simp only [State.packetAt, State.send_ports, getElem?_modify_port] at h ⊢
  by_cases hj : k = j
  · subst hj
    cases hq : s.ports[k]? with
    | none => simp [hq] at h
    | some q =>
      simp only [hq, if_true, Option.map_some, Option.bind_some, Port.received_packets] at h ⊢
      rcases Nat.lt_or_ge i q.packets.length with hi | hi
      · exact .inl (by rw [← h, List.getElem?_append_left hi])
      · rw [List.getElem?_append_right hi] at h
        have h0 : i - q.packets.length = 0 := by
          by_contra hne
          simp [List.getElem?_eq_none (by simp; omega : ([p] : List Packet).length ≤ i - q.packets.length)] at h
        rw [h0] at h
        refine .inr ⟨trivial, by simpa using h.symm, ⟨q, rfl, by omega⟩, fun i' p'' h' => ?_⟩
        obtain ⟨hlt, -⟩ := List.getElem?_eq_some_iff.1 h'
        omega
  · simp only [if_neg hj, Option.map_id_fun', id] at h
    exact .inl h

/-- The entry of a place after one more packet was sent is the one from before, or empty. -/
theorem touchedAt_send {s : State} {k : Nat} {p : Packet} {j i : Nat} {since : List Nat}
    (h : (s.send k p).touchedAt j i = some since) : s.touchedAt j i = some since ∨ since = [] := by
  simp only [State.touchedAt, State.send_ledger, List.getElem?_modify] at h ⊢
  by_cases hj : k = j
  · subst hj
    cases hl : s.ledger[k]? with
    | none => simp [hl] at h
    | some l =>
      simp only [hl, if_true, Option.map_eq_map, Option.map_some, Option.bind_some, Ledger.sent_touched] at h ⊢
      rcases Nat.lt_or_ge i l.touched.length with hi | hi
      · exact .inl (by rw [← h, List.getElem?_append_left hi])
      · rw [List.getElem?_append_right hi] at h
        exact .inr (by simpa using (List.mem_of_getElem? h))
  · simp only [if_neg hj] at h
    cases hl : s.ledger[j]? <;> simp_all

/-- The new packet's entry is empty where the ledgers match the ports. -/
theorem touchedAt_sent {s : State} {k : Nat} {p : Packet} {q : Port} {since : List Nat} (hm : s.ledgerMatches)
    (hq : s.ports[k]? = some q) (h : (s.send k p).touchedAt k q.packets.length = some since) : since = [] := by
  have hk := congrArg (fun x => x[k]?) hm
  simp only [List.getElem?_map, hq, Option.map_some] at hk
  cases hl : s.ledger[k]? with
  | none => simp [hl] at hk
  | some l =>
    simp only [hl, Option.map_some, Option.some.injEq, Prod.mk.injEq] at hk
    simp only [State.touchedAt, State.send_ledger, List.getElem?_modify, hl, if_true, Option.map_eq_map, Option.map_some,
      Option.bind_some, Ledger.sent_touched] at h
    rw [List.getElem?_append_right (by omega)] at h
    simpa using List.mem_of_getElem? h

/-- The entries after a host's access. -/
theorem touchedAt_noteAccess (s : State) (a j i : Nat) :
    (s.noteAccess a).touchedAt j i = (s.touchedAt j i).map (a :: ·) := by
  simp only [State.touchedAt, State.noteAccess_ledger, List.getElem?_map]
  cases s.ledger[j]? <;> simp

/-! ### Hosts that keep their duties -/

/-- What is outstanding on a port: the packets answered and not collected, then those waiting. -/
def Covers (s : State) (sent : Outstanding) : Prop :=
  ∀ (k : Nat) (q : Port), s.ports[k]? = some q → ∃ gone : List Packet, sent[k]? = some (gone ++ q.packets) ∧ gone.length = q.responses.length

/-- A state whose hosts have kept their duties and keep them (R143 to R146). -/
structure Dutiful (sent : Outstanding) (s : State) : Prop where
  ledger : s.ledgerMatches
  covers : Covers s sent
  waiting : s.WaitingDutiful
  hosts : HostsKeepDuties s.env sent s

/-- The launch premises of R25 make a dutiful state. -/
theorem State.Launch.dutiful {s : State} {queues : List (List Packet)} (h : s.Launch queues) : Dutiful queues s where
  ledger := by simp [State.ledgerMatches, h.ports, h.ledger]
  covers := fun k q hq => by
    rw [h.ports, List.getElem?_map] at hq
    cases hk : queues[k]? with
    | none => simp [hk] at hq
    | some ps =>
      simp only [hk, Option.map_some, Option.some.injEq] at hq
      subst hq
      exact ⟨[], rfl, rfl⟩
  waiting := h.waiting
  hosts := h.hosts

/-- The next event of a dutiful state is one its hosts are allowed, and leaves duties kept. -/
theorem Dutiful.next_event {sent : Outstanding} {s : State} {e : Event} {rest : List Event} (h : Dutiful sent s)
    (he : s.env = e :: rest) :
    s.Allows sent e ∧ ∀ t, step s = .next t → HostsKeepDuties rest (s.outstandingAfter sent e) t := by
  have hk := h.hosts
  rw [he] at hk
  refine ⟨hk.1, fun t ht => ?_⟩
  have h2 := hk.2
  simp only [ht] at h2
  exact h2

/-- A dutiful state takes no packet whose frame a host has touched. -/
theorem State.WaitingDutiful.not_raced {s : State} (h : s.WaitingDutiful) {k : Nat} {p : Packet}
    (hp : s.front k = some p) : s.raced k p = none := by
  rw [State.raced_eq_none]
  intro a ha hs
  by_cases hf : s.fault = true
  · simp [State.claimOf_eq_nil (.inl hf)] at ha
  by_cases hd : ∃ base, decodePacket p = .ok (.process base)
  · obtain ⟨base, hd⟩ := hd
    have h0 : s.packetAt k 0 = some p := (s.packetAt_zero k).trans hp
    rw [State.claimOf_process (by simpa using hf) hd (h.configured k 0 p base h0 hd)] at ha
    rw [State.touchedSince_eq] at hs
    cases ht : s.touchedAt k 0 with
    | none => simp [ht] at hs
    | some since => exact h.untouched k 0 p base since h0 hd ht a ha (by simpa [ht] using hs)
  · simp [State.claimOf_eq_nil (.inr (.inl fun base hb => hd ⟨base, hb⟩))] at ha

/-- A dutiful block finds every byte of a frame it takes, and the configuration in force. -/
theorem State.WaitingDutiful.runs {s : State} (h : s.WaitingDutiful) {k : Nat} {p : Packet} (rest : List Event)
    (hp : s.front k = some p) : ∃ t, runPacket p ({ s with env := rest }.accept k) = .next t := by
  unfold runPacket
  split
  · exact ⟨_, rfl⟩
  · split
    · exact ⟨_, rfl⟩
    · rename_i i hi
      cases hx : exec i ({ s with env := rest }.accept k) with
      | next t => exact ⟨t, rfl⟩
      | refused r => exact absurd hx (exec_not_refused _ _ r)
      | fault f =>
        obtain ⟨base, a, rfl, -, -, ha, hn⟩ := exec_fault hx
        have hprov := h.provided k 0 p base ((s.packetAt_zero k).trans hp) hi a ha
        have hn' : Memory.read s.mem a = none := hn
        simp [hn'] at hprov

/-- A prefix of a frame a dutiful block takes completes too. -/
theorem State.WaitingDutiful.cut_runs {s : State} (h : s.WaitingDutiful) {k n : Nat} {p : Packet} {rest : List Event}
    (hp : s.front k = some p) : ∃ t, cutPacket n p ({ s with env := rest }.accept k) = .next t := by
  by_cases hna : s.fault = true ∨ (∀ base, decodePacket p ≠ .ok (.process base)) ∨ s.notConfigured = true
  · exact ⟨_, cutPacket_noAccess (s := { s with env := rest }.accept k) hna⟩
  · simp only [not_or, Bool.not_eq_true, not_forall, not_not] at hna
    obtain ⟨hf, ⟨base, hd⟩, hc⟩ := hna
    have key := cutPacket_process (n := n) (s := { s with env := rest }.accept k) hf hd hc
    have hprov := h.provided k 0 p base ((s.packetAt_zero k).trans hp) hd
    obtain ⟨pm, hpm⟩ := State.runAccesses_completes (s := { s with env := rest }.accept k)
      (l := (({ s with env := rest }.accept k).frameAccesses base).take n) (px := Pixel.blank)
      (m := ({ s with env := rest }.accept k).mem) fun a ha =>
        hprov _ ((State.frameAccesses_addr ({ s with env := rest }.accept k) base _).1
          (List.mem_map.2 ⟨a, List.mem_of_mem_take ha, rfl⟩))
    rw [hpm] at key
    exact ⟨_, key⟩

/-- Where the hosts keep their duties no step stops. -/
theorem Dutiful.step_runs {sent : Outstanding} {s : State} (h : Dutiful sent s) : ∃ t, step s = .next t := by
  cases he : s.env with
  | nil =>
    rcases s.arbitrate_spec with ⟨ha, -⟩ | ⟨k, ha, hk⟩
    · exact ⟨s, by simp only [step, he, serve, ha]⟩
    · obtain ⟨p, hp⟩ := Option.isSome_iff_exists.1 (State.mem_waiting.1 hk)
      obtain ⟨t, ht⟩ := h.waiting.runs s.env hp
      exact ⟨t, by simp only [step, he, serve, ha, takeFrom, hp, h.waiting.not_raced hp]; exact ht⟩
  | cons e rest =>
    have hal := (h.next_event he).1
    cases e with
    | take k =>
      cases hp : s.front k with
      | none => exact ⟨{ s with env := rest }, by simp only [step, he, perform, takeFrom, State.front_env, hp]⟩
      | some p =>
        obtain ⟨t, ht⟩ := h.waiting.runs rest hp
        exact ⟨t, by rw [step_take he hp, h.waiting.not_raced hp]; exact ht⟩
    | send k p => exact ⟨_, by simp only [step, he, perform]; rfl⟩
    | collect k => exact ⟨_, by simp only [step, he, perform]; rfl⟩
    | reset => exact ⟨_, by simp only [step, he, perform]; rfl⟩
    | cut k n =>
      cases hp : s.front k with
      | none =>
        exact ⟨{ s with env := rest }.applyReset, by simp only [step, he, perform, cutFrom, State.front_env, hp]⟩
      | some p =>
        obtain ⟨t, ht⟩ := h.waiting.cut_runs (n := n) (rest := rest) hp
        exact ⟨t, by rw [step_cut he hp, h.waiting.not_raced hp]; exact ht⟩
    | store a v =>
      have ho : State.owns { s with env := rest, mem := Memory.write s.mem a v } a = false := hal.notOwned
      refine ⟨{ s with env := rest, mem := Memory.write s.mem a v }.noteAccess a, ?_⟩
      simp only [step, he, perform, hostStore, hostAccess, ho, if_neg (Nat.not_le.2 hal.inSpace)]
      rfl
    | load a =>
      have ho : State.owns { s with env := rest } a = false := hal.notOwned
      refine ⟨{ s with env := rest }.noteAccess a, ?_⟩
      simp only [step, he, perform, hostAccess, ho, if_neg (Nat.not_le.2 hal.inSpace)]
      rfl

/-- The footprint is decided by the parameters, the mode and the geometry alone. -/
theorem State.footprint_congr {s s' : State} (hp : s'.params = s.params) (hm : s'.mode = s.mode)
    (hg : s'.geom = s.geom) (base : Word) : s'.footprint base = s.footprint base := by
  simp only [State.footprint, State.units, State.unitFootprint, State.planarAddr, State.yAddr, State.cAddr, State.rAddr,
    State.gAddr, State.bAddr, State.unitStart, hp, hm, hg]

/-- The duties about the packets waiting are about these fields alone. -/
theorem State.WaitingDutiful.congr {s t : State} (h : s.WaitingDutiful) (hq : ∀ k i, t.packetAt k i = s.packetAt k i)
    (hl : ∀ k i, t.touchedAt k i = s.touchedAt k i) (hp : t.params = s.params) (hm : t.mode = s.mode)
    (hg : t.geom = s.geom) (hc : t.cfgerr = s.cfgerr) (hmem : t.mem = s.mem) : t.WaitingDutiful where
  configured := fun k i p base h1 h2 => by
    have := h.configured k i p base (by rw [← hq]; exact h1) h2
    simpa only [State.notConfigured, hm, hc] using this
  provided := fun k i p base h1 h2 a ha => by
    rw [State.footprint_congr hp hm hg] at ha
    rw [hmem]
    exact h.provided k i p base (by rw [← hq]; exact h1) h2 a ha
  ordered := fun k i p base k' i' p' d h1 h2 h3 h4 =>
    h.ordered k i p base k' i' p' d (by rw [← hq]; exact h1) h2 (by rw [← hq]; exact h3) h4
  untouched := fun k i p base since h1 h2 h3 a ha => by
    rw [State.footprint_congr hp hm hg] at ha
    exact h.untouched k i p base since (by rw [← hq]; exact h1) h2 (by rw [← hl]; exact h3) a ha

/-- With no packet waiting there is no duty about any. -/
theorem State.WaitingDutiful.of_empty {s : State} (h : ∀ k i, s.packetAt k i = none) : s.WaitingDutiful where
  configured := fun k i p base h1 => by simp [h] at h1
  provided := fun k i p base h1 => by simp [h] at h1
  ordered := fun k i p base k' i' p' d h1 => by simp [h] at h1
  untouched := fun k i p base since h1 => by simp [h] at h1

/-- Taking a packet keeps the duties about the rest: a `CONFIGURE` taken has no `PROCESS` left behind it. -/
theorem State.WaitingDutiful.taken {s t : State} (h : s.WaitingDutiful) {k : Nat} {p : Packet} (hp : s.front k = some p)
    (ht : PacketEffect (s.accept k) p t) : t.WaitingDutiful := by
  obtain ⟨⟨r, hr⟩, hl, -, hpa, hmem, hcfg⟩ := ht.outline
  have hq := packetAt_answered (s := s) (t := t) (k := k) (r := r) hr
  have hto := touchedAt_taken (s := s) (t := t) (k := k) hl
  have h0 : s.packetAt k 0 = some p := (s.packetAt_zero k).trans hp
  rcases hcfg with ⟨d, hd⟩ | ⟨hm, hg, hc⟩
  · have none_left : ∀ j i p' base, t.packetAt j i = some p' → decodePacket p' ≠ .ok (.process base) :=
      fun j i p' base h1 h2 => by
        rw [hq] at h1
        exact absurd (h.ordered _ _ p' base k 0 p d h1 h2 h0 hd).2 (Nat.not_lt_zero _)
    exact ⟨fun j i p' base h1 h2 => absurd h2 (none_left j i p' base h1),
      fun j i p' base h1 h2 => absurd h2 (none_left j i p' base h1),
      fun j i p' base _ _ _ _ h1 h2 => absurd h2 (none_left j i p' base h1),
      fun j i p' base _ h1 h2 => absurd h2 (none_left j i p' base h1)⟩
  · have hft : ∀ base, t.footprint base = s.footprint base := State.footprint_congr hpa hm hg
    refine ⟨fun j i p' base h1 h2 => ?_, fun j i p' base h1 h2 a ha => ?_,
      fun j i p' base j' i' p'' d h1 h2 h3 h4 => ?_, fun j i p' base since h1 h2 h3 a ha => ?_⟩
    · rw [hq] at h1
      have := h.configured _ _ p' base h1 h2
      simpa only [State.notConfigured, hm, hc, State.accept_mode, State.accept_cfgerr] using this
    · rw [hq] at h1
      rw [hft] at ha
      exact hmem a (h.provided _ _ p' base h1 h2 a ha)
    · rw [hq] at h1 h3
      obtain ⟨rfl, hlt⟩ := h.ordered _ _ p' base _ _ p'' d h1 h2 h3 h4
      exact ⟨rfl, by split at hlt <;> omega⟩
    · rw [hq] at h1
      rw [hto] at h3
      rw [hft] at ha
      exact h.untouched _ _ p' base since h1 h2 h3 a ha

/-- A packet a host may send keeps the duties about the packets waiting. -/
theorem State.WaitingDutiful.sent {s : State} {sent : Outstanding} (h : s.WaitingDutiful) (hl : s.ledgerMatches)
    (hcov : Covers s sent) {k : Nat} {p : Packet} (hs : s.MaySend sent k p) : (s.send k p).WaitingDutiful := by
  have hmem : ∀ j i p', s.packetAt j i = some p' → ∃ ps, sent[j]? = some ps ∧ p' ∈ ps := fun j i p' h1 => by
    simp only [State.packetAt] at h1
    cases hq : s.ports[j]? with
    | none => simp [hq] at h1
    | some q =>
      obtain ⟨gone, hg, -⟩ := hcov j q hq
      refine ⟨_, hg, List.mem_append_right _ (List.mem_of_getElem? (i := i) ?_)⟩
      simpa [hq] using h1
  refine ⟨fun j i p' base h1 h2 => ?_, fun j i p' base h1 h2 => ?_, fun j i p' base j' i' p'' d h1 h2 h3 h4 => ?_,
    fun j i p' base since h1 h2 h3 => ?_⟩
  · rcases packetAt_send h1 with h1 | ⟨-, rfl, -⟩
    · exact h.configured j i p' base h1 h2
    · simp only [State.MaySend, h2] at hs
      exact hs.1
  · rcases packetAt_send h1 with h1 | ⟨-, rfl, -⟩
    · exact h.provided j i p' base h1 h2
    · simp only [State.MaySend, h2] at hs
      exact hs.2.1
  · rcases packetAt_send h1 with hold | ⟨rfl, rfl, -⟩
    · rcases packetAt_send h3 with h3 | ⟨rfl, rfl, -, hlt⟩
      · exact h.ordered j i p' base j' i' p'' d hold h2 h3 h4
      · simp only [State.MaySend, h4] at hs
        obtain ⟨ps, hps, hin⟩ := hmem j i p' hold
        by_cases hj : j = j'
        · subst hj; exact ⟨rfl, hlt i p' hold⟩
        · exact absurd h2 (hs j ps hps hj p' hin base)
    · rcases packetAt_send h3 with h3 | ⟨-, rfl, -⟩
      · simp only [State.MaySend, h2] at hs
        obtain ⟨ps, hps, hin⟩ := hmem j' i' p'' h3
        exact absurd h4 (hs.2.2 ps (List.mem_of_getElem? hps) p'' hin d)
      · rw [h2] at h4; cases h4
  · rcases packetAt_send h1 with h1 | ⟨rfl, -, ⟨q, hq, rfl⟩, -⟩
    · rcases touchedAt_send h3 with h3 | rfl
      · exact h.untouched j i p' base since h1 h2 h3
      · simp
    · rw [touchedAt_sent hl hq h3]; simp

/-- A host's allowed access keeps the duties about the packets waiting. -/
theorem State.WaitingDutiful.accessed {s t : State} {a : Nat} (h : s.WaitingDutiful) (ha : s.HostMayTouch a)
    (hmem : ∀ b, (Memory.read s.mem b).isSome = true → (Memory.read t.mem b).isSome = true)
    (hports : t.ports = s.ports) (hledger : t.ledger = s.ledger) (hp : t.params = s.params) (hm : t.mode = s.mode)
    (hg : t.geom = s.geom) (hc : t.cfgerr = s.cfgerr) : (t.noteAccess a).WaitingDutiful := by
  have hq : ∀ k i, (t.noteAccess a).packetAt k i = s.packetAt k i := fun k i => by
    simp only [State.packetAt, State.noteAccess_ports, hports]
  have hft : ∀ base, (t.noteAccess a).footprint base = s.footprint base := fun base =>
    State.footprint_congr hp hm hg base
  refine ⟨fun k i p base h1 h2 => ?_, fun k i p base h1 h2 b hb => ?_, fun k i p base k' i' p' d h1 h2 h3 h4 => ?_,
    fun k i p base since h1 h2 h3 b hb => ?_⟩
  · rw [hq] at h1
    have := h.configured k i p base h1 h2
    simpa only [State.notConfigured, State.noteAccess_mode, State.noteAccess_cfgerr, hm, hc] using this
  · rw [hq] at h1
    rw [hft] at hb
    exact hmem b (h.provided k i p base h1 h2 b hb)
  · rw [hq] at h1 h3
    exact h.ordered k i p base k' i' p' d h1 h2 h3 h4
  · rw [hq] at h1
    rw [hft] at hb
    have ht : t.touchedAt k i = s.touchedAt k i := by simp only [State.touchedAt, hledger]
    rw [touchedAt_noteAccess, ht] at h3
    cases h4 : s.touchedAt k i with
    | none => simp [h4] at h3
    | some old =>
      simp only [h4, Option.map_some, Option.some.injEq] at h3
      subst h3
      rintro hin
      rcases List.mem_cons.1 hin with rfl | hin
      · exact ha.notWaiting k i p base h1 h2 hb
      · exact h.untouched k i p base old h1 h2 h4 b hb hin

/-- What is outstanding after port `k`'s oldest packet was taken and answered is what was. -/
theorem Covers.taken {s t : State} {sent : Outstanding} (h : Covers s sent) {k : Nat} {p : Packet}
    (hp : s.front k = some p) {r : Response}
    (ht : t.ports = (s.ports.modify k Port.served).modify k fun q => q.answered r) : Covers t sent := by
  intro j q hq
  simp only [ht, getElem?_modify_port] at hq
  cases hs : s.ports[j]? with
  | none => simp [hs] at hq
  | some q0 =>
    obtain ⟨gone, hg, hlen⟩ := h j q0 hs
    simp only [hs, Option.map_some, Option.some.injEq] at hq
    subst hq
    by_cases hj : k = j
    · subst hj
      have hq0 : q0.packets.head? = some p := by simpa [State.front, hs] using hp
      obtain ⟨ps, hps⟩ := List.head?_eq_some_iff.1 hq0
      exact ⟨gone ++ [p], by simp [hg, hps], by simp [hlen]⟩
    · exact ⟨gone, by simp [hg, hj], by simp [hlen, hj]⟩

/-- After reset nothing is outstanding. -/
theorem Covers.of_reset {s : State} {n : Nat} (h : s.ports = List.replicate n emptyPort) :
    Covers s (List.replicate n []) := by
  intro k q hq
  rw [h, List.getElem?_replicate] at hq
  split at hq
  · rename_i hk
    cases hq
    exact ⟨[], by simp [hk, emptyPort], rfl⟩
  · cases hq

/-- Where the hosts keep their duties, they have kept them after each step: the run goes on so for good. -/
theorem Dutiful.step_keeps {sent : Outstanding} {s t : State} (h : Dutiful sent s) (hs : step s = .next t) :
    ∃ sent', Dutiful sent' t := by
  have hlm := step_ledgerMatches h.ledger hs
  cases step_effect hs with
  | wait => exact ⟨sent, h⟩
  | serve he k p hk hp hr _ ht =>
    obtain ⟨⟨r, hport⟩, -, henv, -⟩ := ht.outline
    refine ⟨sent, hlm, h.covers.taken hp hport, h.waiting.taken hp ht, ?_⟩
    rw [henv, State.accept_env, he]
    trivial
  | take k rest he p hp hr _ ht =>
    obtain ⟨⟨r, hport⟩, -, henv, -⟩ := ht.outline
    have hw : State.WaitingDutiful { s with env := rest } :=
      h.waiting.congr (fun _ _ => rfl) (fun _ _ => rfl) rfl rfl rfl rfl rfl
    refine ⟨sent, hlm, h.covers.taken hp hport, hw.taken hp ht, ?_⟩
    rw [henv]
    exact (h.next_event he).2 t hs
  | takeNone k rest he =>
    exact ⟨sent, hlm, h.covers, h.waiting.congr (fun _ _ => rfl) (fun _ _ => rfl) rfl rfl rfl rfl rfl,
      (h.next_event he).2 _ hs⟩
  | send k p rest he =>
    obtain ⟨hal, hnext⟩ := h.next_event he
    refine ⟨_, hlm, fun j q hq => ?_, ?_, hnext _ hs⟩
    · simp only [State.outstandingAfter, List.getElem?_modify]
      simp only [State.send_ports, getElem?_modify_port] at hq
      cases hj : s.ports[j]? with
      | none => simp [hj] at hq
      | some q0 =>
        obtain ⟨gone, hg, hlen⟩ := h.covers j q0 hj
        simp only [hj, Option.map_some, Option.some.injEq] at hq
        subst hq
        refine ⟨gone, ?_, ?_⟩ <;> by_cases hk : k = j <;> simp [hg, hk, hlen]
    · have hw : State.WaitingDutiful { s with env := rest } :=
        h.waiting.congr (fun _ _ => rfl) (fun _ _ => rfl) rfl rfl rfl rfl rfl
      exact hw.sent (s := { s with env := rest }) h.ledger h.covers hal
  | collect k rest he =>
    obtain ⟨-, hnext⟩ := h.next_event he
    refine ⟨_, hlm, fun j q hq => ?_, ?_, hnext _ hs⟩
    · simp only [State.collect_ports, getElem?_modify_port] at hq
      cases hj : s.ports[j]? with
      | none => simp [hj] at hq
      | some q0 =>
        obtain ⟨gone, hg, hlen⟩ := h.covers j q0 hj
        simp only [hj, Option.map_some, Option.some.injEq] at hq
        subst hq
        simp only [State.outstandingAfter]
        by_cases hk : k = j
        · subst hk
          cases hr : q0.responses with
          | nil => exact ⟨gone, by simp [hj, hr, hg], by simp [hlen, hr]⟩
          | cons r rs =>
            rw [hr] at hlen
            obtain ⟨g, gs, rfl⟩ := List.exists_cons_of_length_pos (by rw [hlen]; simp : 0 < gone.length)
            exact ⟨gs, by simp [hj, hr, hg], by simpa [hr] using hlen⟩
        · refine ⟨gone, ?_, by simp [hk, hlen]⟩
          split <;> simp [hk, hg]
    · refine h.waiting.congr (fun j i => ?_) (fun j i => ?_) rfl rfl rfl rfl rfl
      · simp only [State.packetAt, State.collect_ports, getElem?_modify_port]
        cases s.ports[j]? <;> simp [apply_ite Port.packets]
      · simp only [State.touchedAt, State.collect_ledger, List.getElem?_modify]
        by_cases hk : k = j <;> cases s.ledger[j]? <;> simp [hk]
  | reset rest he =>
    obtain ⟨-, hnext⟩ := h.next_event he
    exact ⟨_, hlm, Covers.of_reset rfl, .of_empty (State.packetAt_emptyPorts rfl), hnext _ hs⟩
  | cut k n rest he p hp hr _ ht =>
    obtain ⟨-, hnext⟩ := h.next_event he
    obtain ⟨hport, -, henv⟩ := ht.outline
    refine ⟨_, hlm, Covers.of_reset hport, .of_empty (State.packetAt_emptyPorts hport), ?_⟩
    rw [henv]
    exact hnext _ hs
  | cutNone k n rest he =>
    obtain ⟨-, hnext⟩ := h.next_event he
    exact ⟨_, hlm, Covers.of_reset rfl, .of_empty (State.packetAt_emptyPorts rfl), hnext _ hs⟩
  | store a v rest he ha ho =>
    obtain ⟨hal, hnext⟩ := h.next_event he
    refine ⟨_, hlm, h.covers, h.waiting.accessed hal (fun b hb => ?_) rfl rfl rfl rfl rfl rfl, hnext _ hs⟩
    simp only [Memory.read_write]
    split <;> simp_all
  | load a rest he ha ho =>
    obtain ⟨hal, hnext⟩ := h.next_event he
    exact ⟨_, hlm, h.covers, h.waiting.accessed hal (fun _ hb => hb) rfl rfl rfl rfl rfl rfl, hnext _ hs⟩

/-- A packet taken that finds its configuration in force does not raise `NOT_CONFIGURED`. -/
theorem PacketEffect.fcode_ne {s t : State} {p : Packet} (h : PacketEffect s p t)
    (hc : ∀ base, decodePacket p = .ok (.process base) → s.notConfigured = false) (hf : s.fault = false)
    (ht : t.fault = true) : t.fcode ≠ 3#2 := by
  cases h with
  | faulted h => exact absurd (hf.symm.trans h) (by decide)
  | illegal => simp [FaultCause.code]
  | command _ i hd _ he =>
    cases he with
    | setparam => exact absurd (hf.symm.trans ht) (by decide)
    | setparamRange => simp [FaultCause.code]
    | getparam => exact absurd (hf.symm.trans ht) (by decide)
    | configure => exact absurd (hf.symm.trans ht) (by decide)
    | configureUnsupported => exact absurd (hf.symm.trans ht) (by decide)
    | processNotConfigured base hn => exact absurd ((hc base hd).symm.trans hn) (by decide)
    | process => exact absurd (hf.symm.trans ht) (by decide)

/-- Where the hosts keep their duties no step raises `NOT_CONFIGURED` (R143 (3), R144). -/
theorem Dutiful.never_notConfigured {sent : Outstanding} {s t : State} (h : Dutiful sent s) (hs : step s = .next t)
    (hf : s.fault = false) (ht : t.fault = true) : t.fcode ≠ 3#2 := by
  have hc : ∀ k p, s.front k = some p → ∀ base, decodePacket p = .ok (.process base) → s.notConfigured = false :=
    fun k p hp base => h.waiting.configured k 0 p base ((s.packetAt_zero k).trans hp)
  have same : ∀ u : State, u.fault = s.fault → u.fault = true → u.fcode ≠ 3#2 := fun u h1 h2 =>
    absurd (hf.symm.trans (h1.symm.trans h2)) (by decide)
  cases step_effect hs with
  | wait => exact same _ rfl ht
  | serve he k p hk hp hr _ hp' => exact hp'.fcode_ne (hc k p hp) hf ht
  | take k rest he p hp hr _ hp' => exact hp'.fcode_ne (hc k p hp) hf ht
  | takeNone => exact same _ rfl ht
  | send => exact same _ rfl ht
  | collect => exact same _ rfl ht
  | reset => cases ht
  | cutNone => cases ht
  | cut k n rest he p hp hr _ hp' => cases hp' <;> cases ht
  | store => exact same _ rfl ht
  | load => exact same _ rfl ht

/-- A run of a dutiful state goes on for good. -/
theorem Dutiful.run {sent : Outstanding} {s : State} (h : Dutiful sent s) (n : Nat) :
    ∃ t sent', Sys2Proof.core.run n s = .next t ∧ Dutiful sent' t := by
  induction n generalizing sent s with
  | zero => exact ⟨s, sent, rfl, h⟩
  | succ n ih =>
    obtain ⟨t, ht⟩ := h.step_runs
    obtain ⟨sent', h'⟩ := h.step_keeps ht
    obtain ⟨u, sent'', hu, h''⟩ := ih h'
    refine ⟨u, sent'', ?_, h''⟩
    have hcore : Sys2Proof.core.step s = .next t := ht
    simpa only [Host.Core.run, hcore] using hu

/-- Under the launch premises of R25 a run never stops, however many packets wait at its start. -/
theorem State.Launch.run {s : State} {queues : List (List Packet)} (h : s.Launch queues) (n : Nat) :
    ∃ t, Sys2Proof.core.run n s = .next t := by
  obtain ⟨t, -, ht, -⟩ := h.dutiful.run n
  exact ⟨t, ht⟩

end Sys2Proof.Machine
end

