-- ==== Sys2Proof/Laws/Encoding.lean ====
section
/-! SUPPORT. The small lemmas of the decoder and the encoder: what each field of a header and of joined fields reads back
as. -/

namespace Sys2Proof

@[simp] theorem Opcode.ofBits_bits (op : Opcode) : Opcode.ofBits op.bits = some op := by cases op <;> rfl

/-- An opcode read from four bits is the one those bits encode. -/
theorem Opcode.ofBits_eq_some {b : BitVec 4} {op : Opcode} (h : Opcode.ofBits b = some op) : b = op.bits := by
  revert b; cases op <;> decide

/-- A field `w[hi:lo]` as a number (R6). -/
theorem toNat_field (w : Word) (hi lo : Nat) : (w.extractLsb hi lo).toNat = w.toNat / 2 ^ lo % 2 ^ (hi - lo + 1) := by
  simp [BitVec.extractLsb, BitVec.extractLsb'_toNat, Nat.shiftRight_eq_div_pow]

/-- Two halves joined into a word (R6). -/
theorem toNat_pair (h w : BitVec 16) : (h ++ w : BitVec 32).toNat = h.toNat * 65536 + w.toNat := by
  rw [BitVec.toNat_append, ← Nat.shiftLeft_add_eq_or_of_lt w.isLt, Nat.shiftLeft_eq]

/-- Four bytes joined into a word (R6). -/
theorem toNat_quad (a b c d : Byte) :
    (a ++ b ++ c ++ d : BitVec 32).toNat = a.toNat * 16777216 + b.toNat * 65536 + c.toNat * 256 + d.toNat := by
  have h1 := BitVec.toNat_append (a ++ b ++ c) d
  rw [← Nat.shiftLeft_add_eq_or_of_lt d.isLt, Nat.shiftLeft_eq] at h1
  have h2 := BitVec.toNat_append (a ++ b) c
  rw [← Nat.shiftLeft_add_eq_or_of_lt c.isLt, Nat.shiftLeft_eq] at h2
  have h3 := BitVec.toNat_append a b
  rw [← Nat.shiftLeft_add_eq_or_of_lt b.isLt, Nat.shiftLeft_eq] at h3
  refine h1.trans ?_
  rw [h2, h3]; omega

theorem low_pair (h w : BitVec 16) : (h ++ w : BitVec 32).extractLsb 15 0 = w := by
  apply BitVec.eq_of_toNat_eq
  rw [toNat_field, toNat_pair]; omega

theorem high_pair (h w : BitVec 16) : (h ++ w : BitVec 32).extractLsb 31 16 = h := by
  apply BitVec.eq_of_toNat_eq
  rw [toNat_field, toNat_pair]; omega

theorem byte0_quad (a b c d : Byte) : (a ++ b ++ c ++ d : BitVec 32).extractLsb 7 0 = d := by
  apply BitVec.eq_of_toNat_eq
  rw [toNat_field, toNat_quad]; omega

theorem byte1_quad (a b c d : Byte) : (a ++ b ++ c ++ d : BitVec 32).extractLsb 15 8 = c := by
  apply BitVec.eq_of_toNat_eq
  rw [toNat_field, toNat_quad]; omega

theorem byte2_quad (a b c d : Byte) : (a ++ b ++ c ++ d : BitVec 32).extractLsb 23 16 = b := by
  apply BitVec.eq_of_toNat_eq
  rw [toNat_field, toNat_quad]; omega

theorem byte3_quad (a b c d : Byte) : (a ++ b ++ c ++ d : BitVec 32).extractLsb 31 24 = a := by
  apply BitVec.eq_of_toNat_eq
  rw [toNat_field, toNat_quad]; omega

@[simp] theorem opcField_plainHeader (op : Opcode) : opcField (plainHeader op) = op.bits := by cases op <;> rfl

@[simp] theorem reserved_plainHeader (op : Opcode) : (plainHeader op).extractLsb 27 0 = 0#28 := by cases op <;> rfl

@[simp] theorem opcField_layoutHeader (l : Byte) : opcField (layoutHeader l) = Opcode.configure.bits := by
  revert l; decide

@[simp] theorem reserved_layoutHeader (l : Byte) : (layoutHeader l).extractLsb 27 8 = 0#20 := by
  revert l; decide

@[simp] theorem layout_layoutHeader (l : Byte) : (layoutHeader l).extractLsb 7 0 = l := by
  revert l; decide

/-- A header with an opcode and no reserved bit set is the plain header of that opcode. -/
theorem plainHeader_of_fields {w : Word} {op : Opcode} (ho : opcField w = op.bits) (hr : w.extractLsb 27 0 = 0#28) :
    w = plainHeader op := by
  apply BitVec.eq_of_toNat_eq
  have h1 := congrArg BitVec.toNat ho
  have h2 := congrArg BitVec.toNat hr
  rw [opcField, toNat_field] at h1
  rw [toNat_field] at h2
  have hw := w.isLt
  cases op
  all_goals
    simp [plainHeader, Opcode.bits] at h1 h2 ⊢
    omega

/-- A `CONFIGURE` header with no reserved bit set is the header of its layout code. -/
theorem layoutHeader_of_fields {w : Word} (ho : opcField w = Opcode.configure.bits) (hr : w.extractLsb 27 8 = 0#20) :
    w = layoutHeader (w.extractLsb 7 0) := by
  apply BitVec.eq_of_toNat_eq
  have h1 := congrArg BitVec.toNat ho
  have h2 := congrArg BitVec.toNat hr
  rw [opcField, toNat_field] at h1
  rw [toNat_field] at h2
  have hw := w.isLt
  have h3 : (layoutHeader (w.extractLsb 7 0)).toNat = 3 * 268435456 + (w.extractLsb 7 0).toNat := by
    generalize w.extractLsb 7 0 = l
    revert l; decide
  rw [h3, toNat_field]
  simp [Opcode.bits] at h1 h2
  omega

end Sys2Proof
end

