-- ==== Sys2Proof/Laws/PerInstr.lean ====
section
/-! SUPPORT. Statements made of every command, one lemma for each constructor of Instr. -/

namespace Sys2Proof.Laws.EncodedShape

/-- The encoded packet of a command has the length and the header of its row of the opcode map (30_encoding.md R53). -/
def Statement : Instr → Prop
  | .setparam v => encode (.setparam v) = [0x10000000#32, v]
  | .getparam => encode .getparam = [0x20000000#32]
  | .configure d =>
    (encode (.configure d)).length = 4 ∧ (encode (.configure d)).head? = some (0x30000000#32 ||| d.layout.setWidth 32)
  | .process base => encode (.process base) = [0x40000000#32, base]

theorem setparam (v : Word) : Statement (.setparam v) := rfl

theorem getparam : Statement .getparam := rfl

theorem configure (d : Descriptor) : Statement (.configure d) := by
  refine ⟨rfl, ?_⟩
  simp only [encode, List.head?_cons]
  generalize d.layout = l
  revert l
  decide

theorem process (base : Word) : Statement (.process base) := rfl

end Sys2Proof.Laws.EncodedShape
end

