-- ==== Sys2Proof/Laws/Tables.lean ====
section
/-! SUPPORT. What a table built from a function reads back, and the ranges of the two entry functions. -/

namespace Sys2Proof.Machine

@[simp] theorem lookup_tableOf (f : Nat → Nat) (n : Byte) : lookup (tableOf f) n = BitVec.ofNat 8 (f n.toNat) := by
  simp [lookup, tableOf]

/-- The luma entries lie in 16..235 (R70). -/
theorem lumaEntry_range {n : Nat} (h : n < 256) : 16 ≤ lumaEntry n ∧ lumaEntry n ≤ 235 := by
  simp only [lumaEntry, lumaHi, lumaLo]
  omega

/-- The chroma entries lie in 16..240 (R71). -/
theorem chromaEntry_range {n : Nat} (h : n < 256) : 16 ≤ chromaEntry n ∧ chromaEntry n ≤ 240 := by
  simp only [chromaEntry, chromaHi, chromaLo]
  omega

/-- An entry of the built luma table is `LumaEntry` as a byte, no bit lost. -/
theorem lookup_lumaTable (n : Byte) : (lookup lumaTable n).toNat = lumaEntry n.toNat := by
  have := lumaEntry_range n.isLt
  rw [lumaTable, lookup_tableOf, BitVec.toNat_ofNat, Nat.mod_eq_of_lt]
  omega

/-- An entry of the built chroma table is `ChromaEntry` as a byte, no bit lost. -/
theorem lookup_chromaTable (n : Byte) : (lookup chromaTable n).toNat = chromaEntry n.toNat := by
  have := chromaEntry_range n.isLt
  rw [chromaTable, lookup_tableOf, BitVec.toNat_ofNat, Nat.mod_eq_of_lt]
  omega

end Sys2Proof.Machine
end

