-- ==== Sys2Proof/Tests/Slice0.lean ====
section
/-! SUPPORT. Small tests of single steps, expected values from spec/95_test_vectors.md and the rules; the ill-formed terms
the checks refuse; and for each statement with hypotheses a state and operands that meet them all. -/

open Sys2Proof Sys2Proof.Machine Sys2Proof.Reference

namespace Sys2Proof.Tests

/-- The next state of an outcome, if it is one. -/
def nextOf : Host.Outcome State Fault Refusal → Option State
  | .next s => some s
  | .fault _ => none
  | .refused _ => none

/-- The bytes memory holds, without their addresses. -/
def bytesOf (o : Option State) : Option (List Byte) := o.map fun s => s.mem.map Prod.snd

/-- The reset state with a configuration in force and some frame memory. -/
def configured (m : Mode) (g : Geometry) (mem : Memory) : State := { State.reset with mode := m, geom := g, mem := mem }

/-- The reset state with packets waiting on port 0, no byte touched since, and events to come. -/
def waitingOn (ps : List Packet) (env : List Event) (s : State) : State :=
  { s with ports := [⟨ps, []⟩, emptyPort], ledger := [⟨ps.map fun _ => [], []⟩, emptyLedger], env := env }

/-- Two steps, if the first answers a next state. -/
def twoSteps (s : State) : Host.Outcome State Fault Refusal :=
  match step s with
  | .next t => step t
  | .fault f => .fault f
  | .refused r => .refused r

/-- Where an outcome stops, if it does. -/
def faultOf : Host.Outcome State Fault Refusal → Option Fault
  | .next _ => none
  | .fault f => some f
  | .refused _ => none

/-! ### Encoding: the words of 30_encoding.md R61 and 95_test_vectors.md 2.3 -/

/-- V-ENC-1. -/
theorem test_decode_setparam : decodePacket [0x10000000#32, 0x400CCCCD#32] = .ok (.setparam 0x400CCCCD#32) := by decide

/-- V-ENC-2. -/
theorem test_decode_getparam : decodePacket [0x20000000#32] = .ok .getparam := by decide

/-- V-ENC-4. -/
theorem test_decode_configure :
    decodePacket [0x30000003#32, 0x00010002#32, 0x00000008#32, 0x00010204#32] =
      .ok (.configure ⟨3#8, ⟨2#16, 1#16, 8#32, 4#8, 2#8, 1#8, 0#8⟩⟩) := by decide

/-- V-ENC-6. -/
theorem test_decode_process : decodePacket [0x40000000#32, 0x00001000#32] = .ok (.process 0x1000#32) := by decide

/-- V-ENC-3 the other way: the words of `CONFIGURE 1, 4, 2, 6, 1, 0, 0, 0`. -/
theorem test_encode_configure :
    encode (.configure ⟨1#8, ⟨4#16, 2#16, 6#32, 1#8, 0#8, 0#8, 0#8⟩⟩) =
      [0x30000001#32, 0x00020004#32, 0x00000006#32, 0x00000001#32] := by decide

/-- V-ENC-7, V-ENC-9, V-ENC-10, V-ENC-13, V-ENC-15, V-ENC-16: illegal, each by its clause of R55. -/
theorem test_decode_illegal :
    decodePacket [0x00000000#32] = .error .reservedOpcode ∧
    decodePacket [0xF0000000#32, 0#32] = .error .reservedOpcode ∧
    decodePacket [0x20000000#32, 0#32] = .error .wrongLength ∧
    decodePacket [0x30000101#32, 0x00020004#32, 6#32, 1#32] = .error .reservedBits ∧
    decodePacket [0x40000000#32, 0x1000#32, 0#32, 0#32, 0#32] = .error .wrongLength ∧
    decodePacket [0x48000000#32, 0x1000#32] = .error .reservedBits := by decide

/-- The host's numbering: the first word is the low 32 bits; a 32-bit row of `PROCESS` gets a zero operand word. -/
theorem test_decodeTableWord :
    decodeTableWord 128 0x00010204000000080001000230000003 =
      some (.configure ⟨3#8, ⟨2#16, 1#16, 8#32, 4#8, 2#8, 1#8, 0#8⟩⟩) ∧
    decodeTableWord 32 0x40000000 = some (.process 0#32) ∧ decodeTableWord 32 0x50000000 = none := by decide

/-! ### Well-formedness: each check refuses an ill-formed term -/

/-- R55 (a), (b) at both ends of the reserved range, (c), (d) in formats N and V, (d) in format C; and a legal packet. -/
theorem test_illegal_packets :
    Packet.illegal [] = true ∧ Packet.illegal [0x00000000#32] = true ∧ Packet.illegal [0x50000000#32] = true ∧
    Packet.illegal [0x30000001#32, 0#32, 0#32] = true ∧ Packet.illegal [0x20000001#32] = true ∧
    Packet.illegal [0x30000100#32, 0#32, 0#32, 0#32] = true ∧
    Packet.illegal [0x300000FF#32, 0#32, 0#32, 0#32] = false := by decide

/-- R59: one operand of each command out of range, each of `CONFIGURE`'s in turn; and the largest in range. -/
theorem test_source_out_of_range :
    SourceCommand.wellFormed (.setparam 4294967296) = false ∧ SourceCommand.wellFormed (.process 4294967296) = false ∧
    SourceCommand.wellFormed (.configure 256 0 0 0 0 0 0 0) = false ∧
    SourceCommand.wellFormed (.configure 0 65536 0 0 0 0 0 0) = false ∧
    SourceCommand.wellFormed (.configure 0 0 65536 0 0 0 0 0) = false ∧
    SourceCommand.wellFormed (.configure 0 0 0 4294967296 0 0 0 0) = false ∧
    SourceCommand.wellFormed (.configure 0 0 0 0 256 0 0 0) = false ∧
    SourceCommand.wellFormed (.configure 0 0 0 0 0 256 0 0) = false ∧
    SourceCommand.wellFormed (.configure 0 0 0 0 0 0 256 0) = false ∧
    SourceCommand.wellFormed (.configure 0 0 0 0 0 0 0 256) = false ∧
    SourceCommand.wellFormed (.configure 255 65535 65535 4294967295 255 255 255 255) = true := by decide

/-- The pseudo-commands' operands out of range (R59, R60). -/
theorem test_pseudo_out_of_range :
    SourceCommand.wellFormed (.configurePlanar 65536 0 0) = false ∧
    SourceCommand.wellFormed (.configurePlanar 0 65536 0) = false ∧
    SourceCommand.wellFormed (.configurePlanar 0 0 4294967296) = false ∧
    SourceCommand.wellFormed (.configureYuv 65536 0 0 0) = false ∧
    SourceCommand.wellFormed (.configureYuv 0 0 0 256) = false ∧
    SourceCommand.wellFormed (.configureRgb 0 0 0 256 0 0 0) = false ∧
    SourceCommand.wellFormed (.configureRgb 0 0 0 0 0 0 256) = false := by decide

/-- Memory out of order, with a repeated address, and outside a 4-bit space. -/
theorem test_memory_ill_formed :
    ¬ Memory.wf [(2, 0#8), (1, 0#8)] ∧ ¬ Memory.wf [(1, 0#8), (1, 1#8)] ∧ ¬ Memory.inSpace [(16, 0#8)] 4 := by decide

/-! ### Single commands -/

/-- V-TG-4 and V-TG-5: both ends of the legal range are stored. -/
theorem test_setparam_legal_ends :
    (nextOf (exec (.setparam 0x3C23D70A#32) State.reset)).map (fun t => (t.param, t.fault)) = some (0x3C23D70A#32, false) ∧
    (nextOf (exec (.setparam 0x41200000#32) State.reset)).map (fun t => (t.param, t.fault)) =
      some (0x41200000#32, false) := by decide

/-- V-TG-6 and V-TG-7: one below and one above fault with cause 2 and store nothing. -/
theorem test_setparam_illegal_neighbours :
    (nextOf (exec (.setparam 0x3C23D709#32) State.reset)).map (fun t => (t.param, t.fault, t.fcode)) =
      some (0x3F800000#32, true, 2#2) ∧
    (nextOf (exec (.setparam 0x41200001#32) State.reset)).map (fun t => (t.param, t.fault, t.fcode)) =
      some (0x3F800000#32, true, 2#2) := by decide

/-- V-TG-1: the answer before any `SETPARAM`. -/
theorem test_getparam_after_reset :
    (nextOf (exec .getparam State.reset)).map (fun t => t.ports.map (fun q => q.responses.map Response.words)) =
      some [[[0x00000000#32, 0x3F800000#32]], []] := by decide

/-- V-CF-1. -/
theorem test_configure_planar :
    (nextOf (exec (.configure ⟨1#8, ⟨4#16, 2#16, 6#32, 1#8, 0#8, 0#8, 0#8⟩⟩) State.reset)).map
      (fun t => (t.mode, t.cfgerr, t.geom)) = some (.planar, false, ⟨4#16, 2#16, 6#32, 1#8, 0#8, 0#8, 0#8⟩) := by decide

/-- V-CF-3: after V-CF-1 an unrecognised layout keeps mode and geometry and answers the layout. -/
theorem test_configure_unsupported :
    (nextOf (exec (.configure ⟨4#8, ⟨9#16, 9#16, 9#32, 9#8, 9#8, 9#8, 9#8⟩⟩)
        (configured .planar ⟨4#16, 2#16, 6#32, 1#8, 0#8, 0#8, 0#8⟩ []))).map
      (fun t => (t.mode, t.cfgerr, t.geom.width, t.ports)) =
      some (.planar, true, 4#16, [⟨[], [⟨.unsupportedFormat, 4#32⟩]⟩, emptyPort]) := by decide

/-- V-PL-5, overlapping rows remapped twice, and V-PL-7, a frame that wraps at the top of the address space. -/
theorem test_process_planar :
    bytesOf (nextOf (exec (.process 0#32) (configured .planar ⟨3#16, 2#16, 1#32, 1#8, 0#8, 0#8, 0#8⟩
      [(0, 0x00#8), (1, 0x00#8), (2, 0x00#8), (3, 0x00#8), (4, 0x09#8)]))) =
      some [0x10#8, 0x1E#8, 0x1E#8, 0x10#8, 0x09#8] ∧
    bytesOf (nextOf (exec (.process 0xFFFFFFFE#32) (configured .planar ⟨4#16, 1#16, 0#32, 1#8, 0#8, 0#8, 0#8⟩
      [(0, 0x80#8), (1, 0x6E#8), (2, 0x55#8), (0xFFFFFFFE, 0x00#8), (0xFFFFFFFF, 0xFF#8)]))) =
      some [0x7E#8, 0x6E#8, 0x55#8, 0x10#8, 0xEB#8] := by decide

/-- V-YUV-4, overlapping pairs; V-RGBF-3, three writes to one byte; V-RGBF-1, B-G-R-x order, fourth bytes untouched. -/
theorem test_process_packed :
    bytesOf (nextOf (exec (.process 0#32) (configured .packedYUV ⟨2#16, 1#16, 0#32, 1#8, 0#8, 0#8, 0#8⟩
      [(0, 0x00#8), (1, 0x00#8), (2, 0x00#8), (3, 0x07#8)]))) = some [0x10#8, 0x1E#8, 0x10#8, 0x07#8] ∧
    bytesOf (nextOf (exec (.process 0#32) (configured .packedRGB ⟨1#16, 1#16, 0#32, 0#8, 0#8, 0#8, 0#8⟩
      [(0, 0xFF#8), (1, 0x07#8)]))) = some [0xEA#8, 0x07#8] ∧
    bytesOf (nextOf (exec (.process 0x3000#32) (configured .packedRGB ⟨2#16, 1#16, 8#32, 4#8, 2#8, 1#8, 0#8⟩
      [(0x3000, 0xFF#8), (0x3001, 0x00#8), (0x3002, 0x00#8), (0x3003, 0x5A#8), (0x3004, 0x32#8), (0x3005, 0x64#8),
        (0x3006, 0xC8#8), (0x3007, 0xA5#8)]))) =
      some [0xFF#8, 0x0B#8, 0x0B#8, 0x5A#8, 0x2F#8, 0x62#8, 0xC5#8, 0xA5#8] := by decide

/-- The access sequence of pixel 0 of V-RGBF-1: read 3002, 3001, 3000, write 3002, 3001, 3000. -/
theorem test_access_order_rgb :
    ((configured .packedRGB ⟨1#16, 1#16, 8#32, 4#8, 2#8, 1#8, 0#8⟩ []).frameAccesses 0x3000#32).map Access.event =
      [⟨.read, 0x3002⟩, ⟨.read, 0x3001⟩, ⟨.read, 0x3000⟩, ⟨.write, 0x3002⟩, ⟨.write, 0x3001⟩, ⟨.write, 0x3000⟩] := by
  decide

/-- Table entries of 95_test_vectors.md 2.1. -/
theorem test_table_entries :
    [0#8, 1#8, 4#8, 127#8, 128#8, 136#8, 254#8, 255#8].map (lookup lumaTable) =
      [16#8, 17#8, 19#8, 125#8, 126#8, 133#8, 234#8, 235#8] ∧
    [0#8, 1#8, 4#8, 127#8, 128#8, 136#8, 254#8, 255#8].map (lookup chromaTable) =
      [16#8, 17#8, 20#8, 128#8, 128#8, 135#8, 239#8, 240#8] := by decide

/-- V-RGB-7, V-RGB-9, V-RGB-10, V-RGB-13, V-RGB-16. -/
theorem test_rgb_pixels :
    rgbPixel paramsDefault lumaTable 10#8 20#8 30#8 = (22#8, 34#8, 41#8) ∧
    rgbPixel paramsDefault lumaTable 255#8 255#8 0#8 = (236#8, 239#8, 0#8) ∧
    rgbPixel paramsDefault lumaTable 0#8 255#8 255#8 = (0#8, 245#8, 243#8) ∧
    rgbPixel paramsDefault lumaTable 255#8 128#8 0#8 = (247#8, 123#8, 0#8) ∧
    rgbPixel paramsDefault lumaTable 0#8 0#8 1#8 = (14#8, 17#8, 16#8) := by decide

/-- R106, 95_test_vectors.md 2.4: the shift corner cases. -/
theorem test_shift_corners :
    [-1442, -54, -4206, 52, 255, 256, -256, -257, 0].map (fun x => Int.fdiv x 256) =
      [-6, -1, -17, 0, 0, 1, -1, -2, 0] := by decide

/-- A step of a block in reset with a packet placed by the host: V-CF-6, `PROCESS` before any `CONFIGURE`. -/
theorem test_step_from_reset :
    (nextOf (step (State.reset.withFetchWord 32 0x40000000))).map
      (fun t => (t.fault, t.fcode, t.ports, t.env)) =
      some (true, 3#2, [⟨[], [⟨.fault, 3#32⟩]⟩, emptyPort], []) := by decide

/-- V-CF-8: an illegal packet to a block that faulted with cause 3 is answered 3, not 1. -/
theorem test_step_faulted :
    (nextOf (step (waitingOn [[0#32]] [] { State.reset with fault := true, fcode := 3#2 }))).map
      (fun t => (t.fcode, t.ports.map (fun q => q.responses.map Response.words))) =
      some (3#2, [[[0x00000002#32, 0x00000003#32]], []]) := by decide

/-- R142: `PROCESS` cut after three accesses has remapped one byte and read the next; the block is reset, no response. -/
theorem test_cut_process :
    (nextOf (step (waitingOn [[0x40000000#32, 0x100#32]] [.cut 0 3]
        (configured .planar ⟨2#16, 1#16, 2#32, 1#8, 0#8, 0#8, 0#8⟩ [(0x100, 0x00#8), (0x101, 0xFF#8)])))).map
      (fun t => (t.mem, t.mode, t.ports, t.busLog.length)) =
      some ([(0x100, 0x10#8), (0x101, 0xFF#8)], .unconfigured, [emptyPort, emptyPort], 3) := by decide

/-- R38: a host writes a byte between commands and a padding byte of a frame that waits; a write into that frame stops the
run when the frame's turn comes, and so does a read. -/
theorem test_host_access_before :
    (nextOf (step { State.reset with env := [.store 5 7#8] })).map (fun t => t.mem) = some [(5, 7#8)] ∧
    (nextOf (twoSteps (waitingOn [[0x40000000#32, 0x100#32]] [.store 0x101 7#8]
      (configured .planar ⟨1#16, 2#16, 2#32, 1#8, 0#8, 0#8, 0#8⟩ [(0x100, 0#8), (0x102, 0#8)])))).map (fun t => t.mem) =
      some [(0x100, 16#8), (0x101, 7#8), (0x102, 16#8)] ∧
    faultOf (twoSteps (waitingOn [[0x40000000#32, 0x100#32]] [.store 0x102 7#8]
      (configured .planar ⟨1#16, 2#16, 2#32, 1#8, 0#8, 0#8, 0#8⟩ [(0x100, 0#8), (0x102, 0#8)]))) =
      some (.frameRace 0x102) ∧
    faultOf (twoSteps (waitingOn [[0x40000000#32, 0x100#32]] [.load 0x100]
      (configured .planar ⟨1#16, 2#16, 2#32, 1#8, 0#8, 0#8, 0#8⟩ [(0x100, 0#8), (0x102, 0#8)]))) =
      some (.frameRace 0x100) := by decide

/-- R37, R38: once the frame is done its bytes are the block's until the host has the response, and then the host's. -/
theorem test_host_access_after :
    faultOf (twoSteps (waitingOn [[0x40000000#32, 0x100#32]] [.take 0, .store 0x100 7#8]
      (configured .planar ⟨1#16, 1#16, 1#32, 1#8, 0#8, 0#8, 0#8⟩ [(0x100, 0#8)]))) = some (.frameRace 0x100) ∧
    (nextOf (twoSteps { State.reset with
        ports := [⟨[], [⟨.ok, 0#32⟩]⟩, emptyPort], ledger := [⟨[], [[0x100]]⟩, emptyLedger]
        env := [.collect 0, .store 0x100 7#8] })).map (fun t => (t.mem, t.ports)) =
      some ([(0x100, 7#8)], [emptyPort, emptyPort]) := by decide

/-- R38, R21: `PROCESS` then `CONFIGURE` of another frame on one port: a write in the second frame alone is the host's
right, for the `PROCESS` runs under the first. -/
theorem test_host_access_other_frame :
    (nextOf (twoSteps (waitingOn
        [[0x40000000#32, 0x100#32], [0x30000001#32, 0x00010002#32, 2#32, 1#32]] [.store 0x101 7#8, .take 0]
        (configured .planar ⟨1#16, 1#16, 1#32, 1#8, 0#8, 0#8, 0#8⟩ [(0x100, 0#8)])))).map (fun t => t.mem) =
      some [(0x100, 16#8), (0x101, 7#8)] := by decide

/-- R59, R60: `p1: SETPARAM 0x40400000 ; x` and `CONFIGURE.PLANAR 4, 2, 6` (P2, P6 of 95_test_vectors.md). -/
theorem test_assemble_text :
    assembleProgram
      [['p', '1', ':', ' ', 'S', 'E', 'T', 'P', 'A', 'R', 'A', 'M', ' ', '0', 'x', '4', '0', '4', '0', '0', '0', '0', '0',
          ' ', ';', ' ', 'x'],
        ['C', 'O', 'N', 'F', 'I', 'G', 'U', 'R', 'E', '.', 'P', 'L', 'A', 'N', 'A', 'R', ' ', '4', ',', ' ', '2', ',', ' ',
          '6']] =
      some [(1, [0x10000000#32, 0x40400000#32]), (0, [0x30000001#32, 0x00020004#32, 0x00000006#32, 0x00000001#32])] := by
  decide

/-- R59: a value outside its range is refused, not truncated. -/
theorem test_assemble_refuses :
    assembleProgram [['P', 'R', 'O', 'C', 'E', 'S', 'S', ' ', '4', '2', '9', '4', '9', '6', '7', '2', '9', '6']] = none := by
  decide

/-! ### Witnesses: states and operands that meet the hypotheses of the statements -/

/-- A planar frame of 2 × 2 bytes, stride 3, at 0x100. -/
def planarState : State :=
  configured .planar ⟨2#16, 2#16, 3#32, 1#8, 0#8, 0#8, 0#8⟩
    [(0x100, 0x00#8), (0x101, 0xFF#8), (0x102, 0xAA#8), (0x103, 0x80#8), (0x104, 0x6E#8)]

/-- A packed-YUV frame of 2 pairs, stride 4, at 0x200. -/
def yuvState : State :=
  configured .packedYUV ⟨2#16, 1#16, 4#32, 2#8, 0#8, 0#8, 0#8⟩
    [(0x200, 0x00#8), (0x201, 0x80#8), (0x202, 0xFF#8), (0x203, 0x10#8)]

/-- A packed-RGB frame of one B-G-R pixel at 0x300. -/
def rgbState : State :=
  configured .packedRGB ⟨1#16, 1#16, 4#32, 4#8, 2#8, 1#8, 0#8⟩ [(0x300, 0x32#8), (0x301, 0x64#8), (0x302, 0xC8#8)]

/-- The packet `PROCESS 0x100`. -/
def processPacket : Packet := [0x40000000#32, 0x100#32]

theorem planarState_ready : Ready planarState 0x100#32 .planar := ⟨rfl, rfl, rfl, by decide⟩

theorem yuvState_ready : Ready yuvState 0x200#32 .packedYUV := ⟨rfl, rfl, rfl, by decide⟩

theorem rgbState_ready : Ready rgbState 0x300#32 .packedRGB := ⟨rfl, rfl, rfl, by decide⟩

/-- A waiting planar frame, one byte of it touched by a host since it was sent. -/
def racedState (env : List Event) : State :=
  { waitingOn [processPacket] env planarState with ledger := [⟨[[0x104]], []⟩, emptyLedger] }

theorem racedState_races (env : List Event) : HostRaces (racedState env) 0 processPacket :=
  ⟨rfl, show Mode.planar ≠ .unconfigured by decide, rfl, 0x100#32, ⟨[[0x104]], []⟩, [0x104], [], by decide, rfl, rfl, 0x104,
    show 0x104 ∈ planarState.footprint 0x100#32 by decide, by decide⟩

theorem planarState_not_races (env : List Event) : ¬ HostRaces (waitingOn [processPacket] env planarState) 0 processPacket := by
  rintro ⟨-, -, -, base, l, since, later, -, hl, ht, a, -, ha⟩
  cases hl
  cases ht
  cases ha

theorem witness_ResetEventGivesResetState :
    { State.reset with env := [.reset] }.env = .reset :: [] ∧
      { State.reset with env := [.cut 1 4] }.env = .cut 1 4 :: [] ∧ { State.reset with env := [.cut 1 4] }.front 1 = none :=
  ⟨rfl, rfl, rfl⟩

/-- The launch premises with the ports empty: reset, and reset with a response still owed, which is refused (R24). -/
theorem witness_InvariantHoldsAtReset :
    State.reset.LaunchEmpty ∧
      ¬ State.LaunchEmpty { State.reset with ports := [⟨[], [⟨.ok, 0#32⟩]⟩, emptyPort] } :=
  ⟨⟨rfl, rfl, ⟨rfl, rfl⟩, by decide, rfl, .of_empty (State.packetAt_emptyPorts rfl), trivial⟩,
    fun h => absurd h.ports (by decide)⟩

/-- The only packet waiting in a state that `waitingOn` makes of one packet. -/
theorem packetAt_waitingOn {p p' : Packet} {env : List Event} {s : State} {k i : Nat}
    (h : (waitingOn [p] env s).packetAt k i = some p') : k = 0 ∧ i = 0 ∧ p' = p := by
  match k, i with
  | 0, 0 => exact ⟨rfl, rfl, (Option.some.inj h).symm⟩
  | 0, i + 1 => simp [State.packetAt, waitingOn] at h
  | 1, i => simp [State.packetAt, waitingOn, emptyPort] at h
  | k + 2, i => simp [State.packetAt, waitingOn] at h

/-- R25 with a `PROCESS` given as waiting, whose host then writes a padding byte of its frame and not a byte of it. -/
theorem test_launch_with_packets :
    (waitingOn [processPacket] [.store 0x102 1#8] planarState).Launch [[processPacket], []] ∧
      ¬ (waitingOn [processPacket] [.store 0x103 1#8] planarState).Launch [[processPacket], []] := by
  have hd : decodePacket processPacket = .ok (.process 0x100#32) := by decide
  have hproc : ∀ {p base}, p = processPacket → decodePacket p = .ok (.process base) → base = 0x100#32 :=
    fun hp h => by subst hp; rw [hd] at h; cases h; rfl
  refine ⟨⟨rfl, rfl, ⟨rfl, rfl⟩, by decide, rfl, ⟨fun _ _ _ _ _ _ => rfl, fun k i p base h1 h2 => ?_,
    fun k i p base k' i' p' d _ _ h3 h4 => ?_, fun k i p base since h1 h2 h3 a _ => ?_⟩, ⟨?_, by trivial⟩⟩, fun h => ?_⟩
  · obtain ⟨-, -, hp⟩ := packetAt_waitingOn h1
    cases hproc hp h2
    decide
  · obtain ⟨-, -, rfl⟩ := packetAt_waitingOn h3
    rw [hd] at h4
    cases h4
  · obtain ⟨rfl, rfl, -⟩ := packetAt_waitingOn h1
    cases h3
    simp
  · refine ⟨by decide, by decide, fun k i p base h1 h2 => ?_⟩
    obtain ⟨-, -, hp⟩ := packetAt_waitingOn h1
    cases hproc hp h2
    decide
  · exact h.hosts.1.notWaiting 0 0 processPacket 0x100#32 rfl hd (by decide)

/-- R144, R145: a `PROCESS` may not be sent before the answer of a `CONFIGURE` on the other port has been seen, nor a
`CONFIGURE` while a `PROCESS` on the other port is unanswered; behind it on its own port it may. -/
theorem test_may_send :
    ¬ planarState.MaySend [[], [[0x30000001#32, 0x00020002#32, 3#32, 1#32]]] 0 processPacket ∧
      planarState.MaySend [[], []] 0 processPacket ∧
      ¬ planarState.MaySend [[processPacket], []] 1 [0x30000001#32, 0x00020002#32, 3#32, 1#32] ∧
      planarState.MaySend [[processPacket], []] 0 [0x30000001#32, 0x00020002#32, 3#32, 1#32] := by
  have hd : decodePacket processPacket = .ok (.process 0x100#32) := by decide
  have hc : decodePacket [0x30000001#32, 0x00020002#32, 3#32, 1#32] =
      .ok (.configure ⟨1#8, ⟨2#16, 2#16, 3#32, 1#8, 0#8, 0#8, 0#8⟩⟩) := by decide
  simp only [State.MaySend, hd, hc]
  refine ⟨fun h => h.2.2 [[0x30000001#32, 0x00020002#32, 3#32, 1#32]] (by simp) _ List.mem_cons_self _ hc,
    ⟨rfl, by decide, by simp [noConfigure]⟩, fun h => h 0 _ rfl (by decide) _ List.mem_cons_self _ hd,
    fun k ps h hk => ?_⟩
  match k with
  | 0 => exact absurd rfl hk
  | 1 => cases h; simp [noProcess]
  | k + 2 => cases h

theorem witness_EveryStepKeepsInvariant :
    (waitingOn [processPacket] [] planarState).Inv ∧ ∃ t, step (waitingOn [processPacket] [] planarState) = .next t :=
  ⟨⟨by decide, ⟨rfl, rfl⟩, by decide, fun h => absurd h (by decide), by decide, by decide, by decide, by decide⟩, ⟨_, rfl⟩⟩

/-- A state that no run reaches, and the reset state, meet the hypothesis on `FAULT`; the illegal case's operand too. -/
theorem witness_SetparamByLegality :
    State.reset.fault = false ∧ (0x3C23D70A ≤ (0x3C23D70A#32).toNat ∧ (0x3C23D70A#32).toNat ≤ 0x41200000) ∧
      (0x3C23D70A ≤ (0x41200000#32).toNat ∧ (0x41200000#32).toNat ≤ 0x41200000) ∧
      ¬ 0x3C23D70A ≤ (0x3C23D709#32).toNat ∧ ¬ (0x41200001#32).toNat ≤ 0x41200000 := by decide

theorem witness_GetparamAnswersParam : State.reset.fault = false := rfl

theorem witness_GetparamReturnsLastSetValue :
    State.reset.fault = false ∧ paramLegal 0x400CCCCD#32 = true ∧
      State.reset.ports[State.reset.port]? = some emptyPort := by decide

/-- One layout code for each clause, and the codes next to the recognised range. -/
theorem witness_ConfigureByLayout :
    State.reset.fault = false ∧ (1#8 : Byte) = 1#8 ∧ (2#8 : Byte) = 2#8 ∧ (3#8 : Byte) = 3#8 ∧
      ((0#8 : Byte) ≠ 1#8 ∧ (0#8 : Byte) ≠ 2#8 ∧ (0#8 : Byte) ≠ 3#8) ∧
      ((4#8 : Byte) ≠ 1#8 ∧ (4#8 : Byte) ≠ 2#8 ∧ (4#8 : Byte) ≠ 3#8) := by decide

theorem witness_ConfigurationStateMachine :
    planarState.fault = false ∧ (∃ t, exec (.process 0x100#32) planarState = .next t) ∧
      ∃ t, exec (.configure ⟨9#8, geometryZero⟩) planarState = .next t := ⟨rfl, ⟨_, rfl⟩, ⟨_, rfl⟩⟩

/-- Each of the two ways of not being configured. -/
theorem witness_ProcessNotConfiguredFaults :
    State.reset.fault = false ∧ State.reset.mode = .unconfigured ∧
      { planarState with cfgerr := true }.fault = false ∧ { planarState with cfgerr := true }.cfgerr = true := by decide

theorem witness_PlanarRunsPseudocode :
    planarState.fault = false ∧ planarState.mode = .planar ∧ planarState.cfgerr = false ∧
      (planarTransform planarState 0x100#32 planarState.mem).isSome = true ∧
      planarTransform planarState 0x101#32 planarState.mem = none := by decide

theorem witness_PackedYUVRunsPseudocode :
    yuvState.fault = false ∧ yuvState.mode = .packedYUV ∧ yuvState.cfgerr = false ∧
      (packedYUVTransform yuvState 0x200#32 yuvState.mem).isSome = true ∧
      packedYUVTransform yuvState 0x201#32 yuvState.mem = none := by decide

theorem witness_PackedRGBRunsPseudocode :
    rgbState.fault = false ∧ rgbState.mode = .packedRGB ∧ rgbState.cfgerr = false ∧
      (packedRGBTransform rgbState 0x300#32 rgbState.mem).isSome = true ∧
      packedRGBTransform rgbState 0x301#32 rgbState.mem = none := by decide

theorem witness_ProcessCompletesOnProvidedFrame :
    (Mode.planar ≠ .unconfigured ∧ Ready planarState 0x100#32 .planar) ∧
      (Mode.packedYUV ≠ .unconfigured ∧ Ready yuvState 0x200#32 .packedYUV) ∧
      (Mode.packedRGB ≠ .unconfigured ∧ Ready rgbState 0x300#32 .packedRGB) :=
  ⟨⟨by decide, planarState_ready⟩, ⟨by decide, yuvState_ready⟩, ⟨by decide, rgbState_ready⟩⟩

theorem witness_ProcessStuckOnMissingByte :
    planarState.mode ≠ .unconfigured ∧ planarState.cfgerr = false ∧
      ∃ a ∈ planarState.footprint 0x101#32, Memory.read planarState.mem a = none :=
  ⟨by decide, rfl, 0x105, by decide, by decide⟩

theorem witness_ProcessChangesOnlyItsFootprint :
    planarState.fault = false ∧ planarState.mode ≠ .unconfigured ∧ planarState.cfgerr = false ∧
      (∃ t, exec (.process 0x100#32) planarState = .next t) ∧ 0x102 ∉ planarState.footprint 0x100#32 :=
  ⟨rfl, by decide, rfl, ⟨_, rfl⟩, by decide⟩

theorem witness_PlanarResultOnDisjointFrame :
    Ready planarState 0x100#32 .planar ∧ planarState.geomDisjoint 0x100#32 ∧ 1 < planarState.geom.height.toNat ∧
      1 < planarState.geom.width.toNat := ⟨planarState_ready, by decide, by decide, by decide⟩

theorem witness_PackedYUVResultOnDisjointFrame :
    Ready yuvState 0x200#32 .packedYUV ∧ yuvState.geomDisjoint 0x200#32 ∧ 0 < yuvState.geom.height.toNat ∧
      1 < yuvState.geom.width.toNat := ⟨yuvState_ready, by decide, by decide, by decide⟩

theorem witness_PackedRGBResultOnDisjointFrame :
    Ready rgbState 0x300#32 .packedRGB ∧ rgbState.geomDisjoint 0x300#32 ∧ 0 < rgbState.geom.height.toNat ∧
      0 < rgbState.geom.width.toNat := ⟨rgbState_ready, by decide, by decide, by decide⟩

/-- An empty frame by its width, and one by its height. -/
theorem witness_EmptyFrameMakesNoAccess :
    (configured .planar ⟨0#16, 5#16, 8#32, 1#8, 0#8, 0#8, 0#8⟩ []).mode ≠ .unconfigured ∧
      (configured .planar ⟨0#16, 5#16, 8#32, 1#8, 0#8, 0#8, 0#8⟩ []).geom.width = 0#16 ∧
      (configured .packedRGB ⟨5#16, 0#16, 8#32, 1#8, 0#8, 0#8, 0#8⟩ []).geom.height = 0#16 ∧
      (configured .packedRGB ⟨5#16, 0#16, 8#32, 1#8, 0#8, 0#8, 0#8⟩ []).fault = false ∧
      (configured .packedRGB ⟨5#16, 0#16, 8#32, 1#8, 0#8, 0#8, 0#8⟩ []).cfgerr = false := by decide

theorem witness_UnreadFieldsDoNotMatter :
    planarState.mode = .planar ∧ yuvState.mode = .packedYUV ∧ rgbState.mode = .packedRGB := by decide

/-- Two states that agree on the footprint and differ in a padding byte and in the parameter. -/
theorem witness_FrameDependsOnlyOnItsFootprint :
    ∃ s' t : State, s'.params = planarState.params ∧ s'.luma = planarState.luma ∧ s'.chroma = planarState.chroma ∧
      s'.mode = planarState.mode ∧ s'.cfgerr = planarState.cfgerr ∧ s'.geom = planarState.geom ∧ s' ≠ planarState ∧
      (∀ a ∈ planarState.footprint 0x100#32, Memory.read s'.mem a = Memory.read planarState.mem a) ∧
      exec (.process 0x100#32) planarState = .next t :=
  ⟨{ planarState with param := 0x40000000#32, mem := Memory.write planarState.mem 0x102 0xBB#8 }, _, rfl, rfl, rfl, rfl, rfl,
    rfl, fun h => absurd (congrArg State.param h) (by decide), by decide, rfl⟩

/-- Frames that end exactly at the top of the address space, with the least stride: one row and several rows. -/
theorem witness_PlanarGeometrySufficesForDisjoint :
    let s := configured .planar ⟨4#16, 2#16, 4#32, 1#8, 0#8, 0#8, 0#8⟩ []
    s.mode = .planar ∧ s.geom.width.toNat ≤ s.geom.stride.toNat ∧
      (0xFFFFFFF8#32).toNat + (s.geom.height.toNat - 1) * s.geom.stride.toNat + s.geom.width.toNat ≤ 2 ^ s.params.aw ∧
      (configured .planar ⟨4#16, 1#16, 0#32, 1#8, 0#8, 0#8, 0#8⟩ []).geom.height.toNat ≤ 1 := by decide

theorem witness_PackedYUVGeometrySufficesForDisjoint :
    let s := configured .packedYUV ⟨2#16, 2#16, 4#32, 2#8, 0#8, 0#8, 0#8⟩ []
    s.mode = .packedYUV ∧ 2 ≤ s.geom.pstride.toNat ∧
      (s.geom.width.toNat - 1) * s.geom.pstride.toNat + 2 ≤ s.geom.stride.toNat ∧
      (0xFFFFFFF8#32).toNat + (s.geom.height.toNat - 1) * s.geom.stride.toNat +
        (s.geom.width.toNat - 1) * s.geom.pstride.toNat + 2 ≤ 2 ^ s.params.aw := by decide

theorem witness_PackedRGBGeometrySufficesForDisjoint :
    let s := configured .packedRGB ⟨2#16, 2#16, 6#32, 3#8, 2#8, 1#8, 0#8⟩ []
    s.mode = .packedRGB ∧ (s.geom.offR ≠ s.geom.offG ∧ s.geom.offR ≠ s.geom.offB ∧ s.geom.offG ≠ s.geom.offB) ∧
      (s.geom.offR < s.geom.pstride ∧ s.geom.offG < s.geom.pstride ∧ s.geom.offB < s.geom.pstride) ∧
      (s.geom.width.toNat - 1) * s.geom.pstride.toNat +
        max s.geom.offR.toNat (max s.geom.offG.toNat s.geom.offB.toNat) + 1 ≤ s.geom.stride.toNat ∧
      (0xFFFFFFF4#32).toNat + (s.geom.height.toNat - 1) * s.geom.stride.toNat +
        (s.geom.width.toNat - 1) * s.geom.pstride.toNat +
        max s.geom.offR.toNat (max s.geom.offG.toNat s.geom.offB.toNat) + 1 ≤ 2 ^ s.params.aw := by decide

theorem witness_SecondPlanarPassRemapsAgain :
    Ready planarState 0x100#32 .planar ∧ planarState.geomDisjoint 0x100#32 ∧ planarState.luma = lumaTable ∧
      1 < planarState.geom.height.toNat ∧ 1 < planarState.geom.width.toNat :=
  ⟨planarState_ready, by decide, rfl, by decide, by decide⟩

/-- The three clauses of R107 at their boundaries. -/
theorem witness_Clamp8Saturates : (-1 : Int) < 0 ∧ (255 : Int) < 256 ∧ ((0 : Int) ≤ 0 ∧ (0 : Int) ≤ 255) ∧
    ((0 : Int) ≤ 255 ∧ (255 : Int) ≤ 255) := by decide

theorem witness_DefaultSumsStayInRange :
    paramsDefault.coefFwd = coefFwdDefault ∧ paramsDefault.coefInv = coefInvDefault := by decide

/-- The default sets with `Vmax` = 239 (R108). -/
theorem witness_SumsFitAccumulatorUnderNoOverflow : boundsChroma paramsDefault 239 ∧ noOverflow32 paramsDefault 239 := by
  refine ⟨fun r g b => ?_, by decide⟩
  have := r.isLt
  have := g.isLt
  have := b.isLt
  simp only [paramsDefault, coefFwdDefault, applyRow, rowSum, byteInt,
    Int.fdiv_eq_ediv_of_nonneg _ (by norm_num : (0 : Int) ≤ 256), abs_le, Int.ofNat_eq_natCast]
  omega

theorem witness_EncodeInvertsDecode : decodePacket processPacket = .ok (.process 0x100#32) := by decide

theorem witness_IllegalPacketsFault :
    State.reset.fault = false ∧ Packet.illegal processPacket = false ∧ Packet.illegal [0#32] = true := by decide

/-- Both clauses, an event naming the port and port 0 the only one waiting, without a race and with one. -/
theorem witness_StepRunsDecodedCommand :
    ((waitingOn [processPacket] [.take 0] planarState).fault = false ∧
      (waitingOn [processPacket] [.take 0] planarState).ports[0]? = some ⟨[processPacket], []⟩ ∧
      decodePacket processPacket = .ok (.process 0x100#32) ∧
      (waitingOn [processPacket] [.take 0] planarState).env = .take 0 :: [] ∧
      (waitingOn [processPacket] [] planarState).env = [] ∧
      (waitingOn [processPacket] [] planarState).waiting = [0] ∧ (racedState []).waiting = [0]) ∧
    (∀ env, ¬ HostRaces (waitingOn [processPacket] env planarState) 0 processPacket) ∧
    ∀ env, HostRaces (racedState env) 0 processPacket :=
  ⟨by decide, planarState_not_races, racedState_races⟩

theorem witness_FaultEntryIsTheOnlyEffect :
    State.reset.fault = false ∧ ∃ t, runPacket processPacket State.reset = .next t ∧ t.fault = true :=
  ⟨rfl, _, rfl, rfl⟩

theorem witness_FaultedBlockOnlyAnswers :
    ∃ s t : State, s.fault = true ∧ s.resetNext = false ∧ step s = .next t ∧ s.waiting = [0] :=
  ⟨waitingOn [processPacket] [] { State.reset with fault := true, fcode := 1#2 }, _, rfl, rfl, rfl, by decide⟩

/-- Both clauses: a step that asserts reset, and a step of a faulted block that does not. -/
theorem witness_OnlyResetClearsFault :
    (∃ s t : State, step s = .next t ∧ s.resetNext = true ∧ s.fault = true) ∧
      ∃ s t : State, step s = .next t ∧ s.resetNext = false ∧ s.fault = true :=
  ⟨⟨{ State.reset with fault := true, fcode := 1#2, env := [.reset] }, _, rfl, rfl, rfl⟩,
    ⟨{ State.reset with fault := true, fcode := 1#2 }, _, rfl, rfl, rfl⟩⟩

theorem witness_OneResponsePerPacket :
    ∃ s t : State, s.env = .take 0 :: [] ∧ s.ports[0]? = some ⟨[processPacket], []⟩ ∧ step s = .next t :=
  ⟨waitingOn [processPacket] [.take 0] planarState, _, rfl, rfl, rfl⟩

theorem witness_BlockWaitsForAPacket : State.reset.env = [] ∧ ∀ q ∈ State.reset.ports, q.packets = [] := by decide

theorem witness_SomeWaitingPortIsServed :
    (waitingOn [processPacket] [] planarState).env = [] ∧
      ∃ q ∈ (waitingOn [processPacket] [] planarState).ports, q.packets ≠ [] := by decide

/-- The three clauses: a packet sent, a response collected, and none to collect. -/
theorem witness_PortsKeepOrder :
    { State.reset with env := [.send 1 processPacket] }.env = .send 1 processPacket :: [] ∧
      State.reset.ports[1]? = some emptyPort ∧
      { State.reset with env := [.collect 0] }.env = .collect 0 :: [] ∧
      { State.reset with ports := [⟨[], [⟨.ok, 0#32⟩, ⟨.ok, 1#32⟩]⟩] }.ports[0]? =
        some ⟨[], [⟨.ok, 0#32⟩, ⟨.ok, 1#32⟩]⟩ ∧
      State.reset.ledgerMatches ∧ (∀ q ∈ State.reset.ports, q.responses = []) := by decide

theorem witness_ModeNeverReturnsToUnconfigured :
    planarState.resetNext = false ∧ planarState.mode ≠ .unconfigured ∧ ∃ t, step planarState = .next t :=
  ⟨rfl, by decide, _, rfl⟩

theorem witness_OnlySetparamChangesParam :
    ∃ s t : State, s.resetNext = false ∧ step s = .next t ∧ t.param ≠ s.param :=
  ⟨waitingOn [[0x10000000#32, 0x40000000#32]] [] State.reset, _, rfl, rfl, by decide⟩

theorem witness_OnlyProcessReachesMemory :
    ∃ s t : State, step s = .next t ∧
      ∀ p u base, s.nextPacket = some (p, u) → decodePacket p ≠ .ok (.process base) := by
  refine ⟨waitingOn [[0x20000000#32]] [.take 0] planarState, _, rfl, fun p u base h => ?_⟩
  have hp : p = [0x20000000#32] := (congrArg Prod.fst (Option.some.inj h)).symm
  subst hp
  rw [test_decode_getparam]
  simp

/-- The clauses on one access: a byte that waits in no frame and is in none owned, one owned, and one past the top of the
space; the frame's own bytes and its padding meet the clauses on a waiting `PROCESS`, before and after it executes. -/
theorem witness_HostAccessRespectsOwnership :
    0x102 < 2 ^ planarState.params.aw ∧ 2 ^ planarState.params.aw ≤ 4294967296 ∧ 4294967295 < 2 ^ planarState.params.aw ∧
      (∀ l ∈ (waitingOn [processPacket] [.store 0x102 1#8] planarState).ledger, ∀ frame ∈ l.owned, 0x102 ∉ frame) ∧
      (∃ l ∈ [(⟨[], [[0x100]]⟩ : Ledger)], ∃ frame ∈ l.owned, 0x100 ∈ frame) ∧
      decodePacket processPacket = .ok (.process 0x100#32) ∧
      (waitingOn [processPacket] [] planarState).ports[0]? = some ⟨[processPacket], []⟩ ∧
      (waitingOn [processPacket] [] planarState).ledger[0]? = some ⟨[[]], []⟩ ∧
      0x103 ∈ (waitingOn [processPacket] [] planarState).footprint 0x100#32 ∧
      0x102 ∉ (waitingOn [processPacket] [] planarState).footprint 0x100#32 := by decide

/-- The steps those clauses speak of answer a next state: an access before the `PROCESS`, and the `PROCESS` itself. -/
theorem witness_HostAccessRespectsOwnership_steps :
    (∃ t, step (waitingOn [processPacket] [.store 0x103 1#8, .take 0] planarState) = .next t) ∧
      (∃ t, step (waitingOn [processPacket] [.load 0x102, .take 0] planarState) = .next t) ∧
      ∃ t, step (waitingOn [processPacket] [.take 0, .store 0x103 1#8] planarState) = .next t :=
  ⟨⟨_, rfl⟩, ⟨_, rfl⟩, ⟨_, rfl⟩⟩

theorem witness_ParametersNeverChange : ∃ t, step State.reset = .next t := ⟨_, rfl⟩

/-- A `PROCESS` that runs, one that a host has raced, and the four ways a packet makes no access. -/
theorem witness_CutCommandMakesAPrefix :
    ((waitingOn [processPacket] [.cut 0 3] planarState).env = .cut 0 3 :: [] ∧
      (waitingOn [processPacket] [.cut 0 3] planarState).ports[0]? = some ⟨[processPacket], []⟩ ∧
      decodePacket processPacket = .ok (.process 0x100#32) ∧
      ¬ HostRaces (waitingOn [processPacket] [.cut 0 3] planarState) 0 processPacket ∧
      Ready (waitingOn [processPacket] [.cut 0 3] planarState) 0x100#32 .planar) ∧
    HostRaces (racedState [.cut 0 3]) 0 processPacket ∧
    (waitingOn [processPacket] [.cut 0 3] State.reset).mode = .unconfigured ∧
    (waitingOn [processPacket] [.cut 0 3] { planarState with cfgerr := true }).cfgerr = true ∧
    (waitingOn [processPacket] [.cut 0 3] { planarState with fault := true }).fault = true ∧
    ∀ base, decodePacket [0x20000000#32] ≠ .ok (.process base) :=
  ⟨⟨rfl, rfl, by decide, planarState_not_races _, ⟨rfl, rfl, rfl, by decide⟩⟩, racedState_races _, rfl, rfl, rfl,
    fun base => by rw [test_decode_getparam]; simp⟩

theorem witness_CutPlanarByteIsOldOrRemapped :
    ∃ s t : State, s.env = .cut 0 3 :: [] ∧ s.front 0 = some processPacket ∧
      decodePacket processPacket = .ok (.process 0x100#32) ∧ Ready s 0x100#32 .planar ∧ s.geomDisjoint 0x100#32 ∧
      0 < s.geom.height.toNat ∧ 1 < s.geom.width.toNat ∧
      Memory.read s.mem (s.planarAddr 0x100#32 0 1) = some 0xFF#8 ∧ step s = .next t :=
  ⟨waitingOn [processPacket] [.cut 0 3] planarState, _, rfl, rfl, by decide, ⟨rfl, rfl, rfl, by decide⟩, by decide,
    by decide, by decide, by decide, rfl⟩

theorem witness_SetparamAndProcessCommute :
    Mode.planar ≠ .unconfigured ∧ Ready planarState 0x100#32 .planar ∧ planarState.tablesBuilt ∧
      paramLegal 0x40400000#32 = true := ⟨by decide, planarState_ready, ⟨rfl, rfl⟩, by decide⟩

/-- The largest operands in range, and one just outside each. -/
theorem witness_AssemblerRefusesOutOfRange :
    4294967295 < 2 ^ 32 ∧ ¬ 4294967296 < 2 ^ 32 ∧ (255 < 256 ∧ 65535 < 65536) ∧ (¬ 256 < 256 ∧ ¬ 65536 < 65536) := by decide

end Sys2Proof.Tests
end

section
/-! SUPPORT. Proofs of the statements about the state (10_state.md): reset, the invariant, the taking of a packet, and what
each field may be changed by. -/

namespace Sys2Proof.Machine

open Sys2Proof.Reference

/-! ### The invariant -/

/-- `State.Inv` but for the ledgers, which match the ports only again once a packet taken has its response. -/
structure State.BlockInv (s : State) : Prop where
  paramLegal : paramLegal s.param = true
  tables : s.tablesBuilt
  faultRecorded : s.faultRecorded
  geometry : s.geometryUnset
  portCount : s.ports.length = s.params.nport
  memWf : Memory.wf s.mem
  memInSpace : Memory.inSpace s.mem s.params.aw

theorem State.inv_iff {s : State} : s.Inv ↔ s.BlockInv ∧ s.ledgerMatches :=
  ⟨fun h => ⟨{ h with }, h.ledger⟩, fun ⟨h, hl⟩ => { h with ledger := hl }⟩

theorem State.BlockInv.respond {s : State} (h : s.BlockInv) (rc : RCode) (data : Word) : (s.respond rc data).BlockInv :=
  { h with portCount := by simpa using h.portCount }

/-- A fault entry records a cause, and no cause has the code 0 (R17, R121). -/
theorem State.BlockInv.raiseFault {s : State} (h : s.BlockInv) (c : FaultCause) : (s.raiseFault c).BlockInv :=
  { h with
    faultRecorded := by cases c <;> simp [State.faultRecorded, FaultCause.code]
    portCount := by simpa using h.portCount }

theorem State.BlockInv.accept {s : State} (h : s.BlockInv) (k : Nat) : (s.accept k).BlockInv :=
  { h with portCount := by simpa using h.portCount }

/-- Reset needs nothing of a state but its memory. -/
theorem State.applyReset_blockInv {s : State} (hwf : Memory.wf s.mem) (hin : Memory.inSpace s.mem s.params.aw) :
    s.applyReset.BlockInv where
  paramLegal := (by decide : Machine.paramLegal paramResetBits = true)
  tables := ⟨rfl, rfl⟩
  faultRecorded := by simp [State.faultRecorded]
  geometry := fun _ => rfl
  portCount := by simp
  memWf := hwf
  memInSpace := hin

/-- Every access of a frame is inside the address space (R34). -/
theorem State.frameAccesses_inSpace {s : State} {base : Word} {a : Access} (h : a ∈ s.frameAccesses base) :
    a.addr < 2 ^ s.params.aw :=
  State.footprint_inSpace ((s.frameAccesses_addr base a.addr).1 (List.mem_map_of_mem h))

theorem ExecEffect.blockInv {s t : State} {i : Instr} (h : s.BlockInv) (he : ExecEffect s i t) : t.BlockInv := by
  cases he with
  | setparam v hv => exact { h.respond .ok 0#32 with paramLegal := hv, tables := ⟨rfl, rfl⟩ }
  | setparamRange => exact h.raiseFault _
  | getparam => exact h.respond _ _
  | configure d m hm =>
    exact { h.respond .ok 0#32 with geometry := fun hu => absurd hu (selectStrategy_ne_unconfigured hm) }
  | configureUnsupported d => exact { h.respond .unsupportedFormat (d.layout.setWidth 32) with }
  | processNotConfigured => exact h.raiseFault _
  | process base pm _ hr =>
    exact { h.respond .ok 0#32 with
      memWf := State.runAccesses_wf hr h.memWf
      memInSpace := State.runAccesses_inSpace (fun _ ha => State.frameAccesses_inSpace ha) hr h.memInSpace }

theorem PacketEffect.blockInv {s t : State} {p : Packet} (h : s.BlockInv) (hp : PacketEffect s p t) : t.BlockInv := by
  cases hp with
  | faulted => exact h.respond _ _
  | illegal => exact h.raiseFault _
  | command _ i _ _ he => exact he.blockInv h

theorem CutEffect.blockInv {n : Nat} {s t : State} {p : Packet} (h : s.BlockInv) (hc : CutEffect n s p t) :
    t.BlockInv := by
  cases hc with
  | noAccess => exact State.applyReset_blockInv h.memWf h.memInSpace
  | process base pm _ _ _ hr =>
    exact State.applyReset_blockInv (State.runAccesses_wf hr h.memWf)
      (State.runAccesses_inSpace (fun _ ha => State.frameAccesses_inSpace (List.mem_of_mem_take ha)) hr h.memInSpace)

theorem step_blockInv {s t : State} (h : s.BlockInv) (hs : step s = .next t) : t.BlockInv := by
  have henv : ∀ rest, State.BlockInv { s with env := rest } := fun _ => { h with }
  cases step_effect hs with
  | wait => exact h
  | serve _ k _ _ _ _ _ hp => exact hp.blockInv (h.accept k)
  | take k rest _ _ _ _ _ hp => exact hp.blockInv ((henv rest).accept k)
  | takeNone _ rest => exact henv rest
  | send _ _ rest => exact { henv rest with portCount := by simpa using h.portCount }
  | collect _ rest => exact { henv rest with portCount := by simpa using h.portCount }
  | reset => exact State.applyReset_blockInv h.memWf h.memInSpace
  | cut k _ rest _ _ _ _ _ hc => exact hc.blockInv ((henv rest).accept k)
  | cutNone => exact State.applyReset_blockInv h.memWf h.memInSpace
  | store a v rest _ ha =>
    exact { henv rest with
      memWf := Memory.write_wf a v h.memWf
      memInSpace := Memory.write_inSpace v h.memInSpace ha }
  | load _ rest => exact { henv rest with }

/-- Settles O4: the part without the ledgers by the cases of a step, the ledgers by `step_ledgerMatches`. -/
theorem everyStepKeepsInvariant : Obligations.EveryStepKeepsInvariant := fun _ _ h hs =>
  State.inv_iff.2 ⟨step_blockInv (State.inv_iff.1 h).1 hs, step_ledgerMatches h.ledger hs⟩

/-- Settles O3: the reset state is the reset of itself, so the invariant is that which reset leaves. -/
theorem invariantHoldsAtReset : Obligations.InvariantHoldsAtReset where
  left := State.inv_iff.2
    ⟨State.applyReset_blockInv (s := State.reset) State.reset_mem_wf (by simp [State.reset]),
      State.reset.applyReset_ledgerMatches⟩
  right :=
    { good := rfl
      ports := rfl
      tables := ⟨rfl, rfl⟩
      paramLegal := by decide
      ledger := rfl
      waiting := .of_empty (State.packetAt_emptyPorts rfl)
      hosts := trivial }

/-! ### What a step does to the registers -/

/-- `t` has the parameters and the registers of `s`: R10 but for the ports. -/
structure State.SameRegisters (s t : State) : Prop where
  params : t.params = s.params := by rfl
  param : t.param = s.param := by rfl
  luma : t.luma = s.luma := by rfl
  chroma : t.chroma = s.chroma := by rfl
  mode : t.mode = s.mode := by rfl
  cfgerr : t.cfgerr = s.cfgerr := by rfl
  geom : t.geom = s.geom := by rfl
  fault : t.fault = s.fault := by rfl
  fcode : t.fcode = s.fcode := by rfl

/-- The three things a step can be to the registers. -/
inductive RegisterEffect (s : State) : State → Prop where
  /-- Reset is asserted. -/
  | reset (hn : s.resetNext = true) (u : State) (hu : u.params = s.params) : RegisterEffect s u.applyReset
  /-- The block waits, or a host acts: no register changes. -/
  | keep (hn : s.resetNext = false) (t : State) (ht : s.SameRegisters t) : RegisterEffect s t
  /-- A packet is taken and executed with the registers of `s`. -/
  | packet (hn : s.resetNext = false) (p : Packet) (u : State) (hp : s.nextPacket = some (p, u))
      (hu : s.SameRegisters u) (t : State) (ht : PacketEffect u p t) : RegisterEffect s t

theorem step_registers {s t : State} (hs : step s = .next t) : RegisterEffect s t := by
  cases step_effect hs with
  | wait he => exact .keep (by simp [State.resetNext, he]) _ {}
  | serve he k p hk hp _ _ ht =>
    exact .packet (by simp [State.resetNext, he]) p (s.accept k) (by simp [State.nextPacket, he, hk, hp]) {} _ ht
  | take k rest he p hp _ _ ht =>
    exact .packet (by simp [State.resetNext, he]) p ({ s with env := rest }.accept k) (by simp [State.nextPacket, he, hp])
      {} _ ht
  | takeNone _ _ he => exact .keep (by simp [State.resetNext, he]) _ {}
  | send _ _ _ he => exact .keep (by simp [State.resetNext, he]) _ {}
  | collect _ _ he => exact .keep (by simp [State.resetNext, he]) _ {}
  | store _ _ _ he => exact .keep (by simp [State.resetNext, he]) _ {}
  | load _ _ he => exact .keep (by simp [State.resetNext, he]) _ {}
  | reset _ he => exact .reset (by simp [State.resetNext, he]) _ rfl
  | cutNone _ _ _ he => exact .reset (by simp [State.resetNext, he]) _ rfl
  | cut _ _ _ he _ _ _ _ hc => cases hc <;> exact .reset (by simp [State.resetNext, he]) _ rfl

/-- A faulted block answers and keeps its cause (R124). -/
theorem PacketEffect.fault_keeps {s t : State} {p : Packet} (h : PacketEffect s p t) (hf : s.fault = true) :
    t.fault = true ∧ t.fcode = s.fcode := by
  cases h with
  | faulted => exact ⟨hf, rfl⟩
  | illegal h' => exact absurd (hf.symm.trans h') (by decide)
  | command h' => exact absurd (hf.symm.trans h') (by decide)

/-- Only `CONFIGURE` sets `MODE`, and never to `Unconfigured` (R13). -/
theorem ExecEffect.mode_ne {s t : State} {i : Instr} (h : ExecEffect s i t) (hm : s.mode ≠ .unconfigured) :
    t.mode ≠ .unconfigured := by
  cases h with
  | configure d m hd => exact selectStrategy_ne_unconfigured hd
  | _ => exact hm

theorem PacketEffect.mode_ne {s t : State} {p : Packet} (h : PacketEffect s p t) (hm : s.mode ≠ .unconfigured) :
    t.mode ≠ .unconfigured := by
  cases h with
  | faulted => exact hm
  | illegal => exact hm
  | command _ _ _ _ he => exact he.mode_ne hm

/-- Only a legal `SETPARAM` changes `PARAM`, to its operand (R74). -/
theorem ExecEffect.param_changes {s t : State} {i : Instr} (h : ExecEffect s i t) (hne : t.param ≠ s.param) :
    paramLegal t.param = true ∧ i = .setparam t.param := by
  cases h with
  | setparam v hv => exact ⟨hv, rfl⟩
  | _ => exact absurd rfl hne

theorem PacketEffect.param_changes {s t : State} {p : Packet} (h : PacketEffect s p t) (hne : t.param ≠ s.param) :
    s.fault = false ∧ paramLegal t.param = true ∧ decodePacket p = .ok (.setparam t.param) := by
  cases h with
  | faulted => exact absurd rfl hne
  | illegal => exact absurd rfl hne
  | command hf i hd _ he =>
    obtain ⟨hl, hi⟩ := he.param_changes hne
    exact ⟨hf, hl, hi ▸ hd⟩

/-- Settles O44: reset clears the two fields, and a packet of a faulted block is only answered. -/
theorem onlyResetClearsFault : Obligations.OnlyResetClearsFault := by
  intro s t hs
  cases step_registers hs with
  | reset hn u _ => exact ⟨fun _ => ⟨rfl, rfl⟩, fun h => absurd (hn.symm.trans h) (by decide)⟩
  | keep hn _ ht => exact ⟨fun h => absurd (hn.symm.trans h) (by decide), fun _ hf => ⟨ht.fault.trans hf, ht.fcode⟩⟩
  | packet hn p u _ hu _ ht =>
    refine ⟨fun h => absurd (hn.symm.trans h) (by decide), fun _ hf => ?_⟩
    obtain ⟨hft, hcode⟩ := ht.fault_keeps (hu.fault.trans hf)
    exact ⟨hft, hcode.trans hu.fcode⟩

/-- Settles O50: of what asserts no reset only a packet can set `MODE`, and `CONFIGURE` sets it to a strategy. -/
theorem modeNeverReturnsToUnconfigured : Obligations.ModeNeverReturnsToUnconfigured := by
  intro s t hnr hm hs
  cases step_registers hs with
  | reset hn => exact absurd (hn.symm.trans hnr) (by decide)
  | keep _ _ ht => exact ht.mode ▸ hm
  | packet _ p u _ hu _ ht => exact ht.mode_ne (hu.mode ▸ hm)

/-- Settles O51: of what asserts no reset only a packet can set `PARAM`, and that packet is a legal `SETPARAM`. -/
theorem onlySetparamChangesParam : Obligations.OnlySetparamChangesParam := by
  intro s t hnr hs hne
  cases step_registers hs with
  | reset hn => exact absurd (hn.symm.trans hnr) (by decide)
  | keep _ _ ht => exact absurd ht.param hne
  | packet _ p u hp hu _ ht =>
    obtain ⟨hf, hl, hd⟩ := ht.param_changes (hu.param ▸ hne)
    exact ⟨hu.fault.symm.trans hf, hl, p, u, hp, hd⟩

/-- Settles O53: reset, hosts and packets alike leave the parameters. -/
theorem parametersNeverChange : Obligations.ParametersNeverChange := by
  intro s t hs
  cases step_registers hs with
  | reset _ u hu => exact hu
  | keep _ _ ht => exact ht.params
  | packet _ p u _ hu _ ht =>
    obtain ⟨-, -, -, hparams, -⟩ := ht.outline
    exact hparams.trans hu.params

/-! ### The taking of a packet -/

/-- Nothing waits exactly where every queue is empty. -/
theorem State.waiting_eq_nil_iff {s : State} : s.waiting = [] ↔ ∀ q ∈ s.ports, q.packets = [] := by
  simp only [List.eq_nil_iff_forall_not_mem, State.mem_waiting, State.front]
  refine ⟨fun h q hq => ?_, fun h k hk => ?_⟩
  · obtain ⟨k, hk⟩ := List.mem_iff_getElem?.1 hq
    simpa [hk, List.eq_nil_iff_forall_not_mem] using h k
  · cases hq : s.ports[k]? with
    | none => simp [hq] at hk
    | some q => simp [hq, List.eq_nil_iff_forall_not_mem.2 (h q (List.mem_of_getElem? hq))] at hk

/-- With one port waiting the arbiter has no choice (R21). -/
theorem State.arbitrate_of_waiting_singleton {s : State} {k : Nat} (h : s.waiting = [k]) : s.arbitrate = some k := by
  simp only [State.arbitrate, h]

theorem step_wait {s : State} (he : s.env = []) (hw : s.waiting = []) : step s = .next s := by
  simp only [step, he, serve, State.arbitrate, hw]

theorem step_serve {s : State} {k : Nat} (he : s.env = []) (hk : s.arbitrate = some k) : step s = takeFrom k s := by
  simp only [step, he, serve, hk]

/-- An operation on a port that is there sets it. -/
theorem modify_eq_set {α : Type} {l : List α} {k : Nat} {a : α} (h : l[k]? = some a) (f : α → α) :
    l.modify k f = l.set k (f a) := by
  simp [List.modify_eq_set_getElem?, h]

theorem State.front_eq_some {s : State} {k : Nat} {p : Packet} :
    s.front k = some p ↔ ∃ q ps, s.ports[k]? = some q ∧ q.packets = p :: ps := by
  simp only [State.front, Option.bind_eq_some_iff, List.head?_eq_some_iff]
  tauto

/-- `State.accept` in the words of the statements. -/
theorem State.accept_eq_accepted {s : State} {k : Nat} {q : Port} {p : Packet} {ps : List Packet}
    (hq : s.ports[k]? = some q) (hp : q.packets = p :: ps) : s.accept k = accepted s k q p ps := by
  have hf : s.front k = some p := State.front_eq_some.2 ⟨q, ps, hq, hp⟩
  simp [State.accept, accepted, hf, modify_eq_set hq, Port.served, hp, Ledger.taken]

/-- `PROCESS` runs in a configured block alone (R90). -/
theorem State.notConfigured_eq_false {s : State} :
    s.notConfigured = false ↔ s.mode ≠ .unconfigured ∧ s.cfgerr = false := by
  simp [State.notConfigured]

/-- A packet claims bytes exactly where it is a `PROCESS` that runs, and then those of its frame (R38). -/
theorem State.mem_claimOf {s : State} {p : Packet} {a : Nat} :
    a ∈ s.claimOf p ↔ s.fault = false ∧ s.notConfigured = false ∧
      ∃ base, decodePacket p = .ok (.process base) ∧ a ∈ s.footprint base := by
  constructor
  · intro h
    have hne := mt State.claimOf_eq_nil (List.ne_nil_of_mem h)
    push Not at hne
    obtain ⟨hf, ⟨base, hd⟩, hc⟩ := hne
    simp only [ne_eq, Bool.not_eq_true] at hf hc
    exact ⟨hf, hc, base, hd, State.claimOf_process hf hd hc ▸ h⟩
  · rintro ⟨hf, hc, base, hd, ha⟩
    rwa [State.claimOf_process hf hd hc]

theorem State.mem_touchedSince {s : State} {k a : Nat} :
    a ∈ s.touchedSince k ↔ ∃ l since later, s.ledger[k]? = some l ∧ l.touched = since :: later ∧ a ∈ since := by
  unfold State.touchedSince
  cases s.ledger[k]? with
  | none => simp
  | some l => cases ht : l.touched <;> simp [ht]

/-- `HostRaces` is what the model's own check looks for (R38). -/
theorem hostRaces_iff {s : State} {k : Nat} {p : Packet} :
    HostRaces s k p ↔ ∃ a ∈ s.claimOf p, a ∈ s.touchedSince k := by
  simp only [HostRaces, State.mem_claimOf, State.mem_touchedSince, State.notConfigured_eq_false]
  constructor
  · rintro ⟨hf, hm, hc, base, l, since, later, hd, hl, ht, a, ha, has⟩
    exact ⟨a, ⟨hf, ⟨hm, hc⟩, base, hd, ha⟩, l, since, later, hl, ht, has⟩
  · rintro ⟨a, ⟨hf, ⟨hm, hc⟩, base, hd, ha⟩, l, since, later, hl, ht, has⟩
    exact ⟨hf, hm, hc, base, l, since, later, hd, hl, ht, a, ha, has⟩

theorem State.raced_eq_none_iff {s : State} {k : Nat} {p : Packet} : s.raced k p = none ↔ ¬ HostRaces s k p := by
  rw [State.raced_eq_none, hostRaces_iff]
  push Not
  rfl

/-- What the taking of port `k`'s oldest packet comes to: R23 for it, or the stop of R38. -/
theorem takeFrom_outcome {s : State} {k : Nat} {q : Port} {p : Packet} {ps : List Packet} (hq : s.ports[k]? = some q)
    (hp : q.packets = p :: ps) :
    (¬ HostRaces s k p → takeFrom k s = runPacket p (accepted s k q p ps)) ∧
      (HostRaces s k p → stopsRaced (takeFrom k s)) := by
  have hf : s.front k = some p := State.front_eq_some.2 ⟨q, ps, hq, hp⟩
  rw [← State.accept_eq_accepted hq hp]
  refine ⟨fun hr => ?_, fun hr => ?_⟩
  · simp only [takeFrom, hf, State.raced_eq_none_iff.2 hr]
  · obtain ⟨a, ha⟩ := Option.ne_none_iff_exists'.1 (mt State.raced_eq_none_iff.1 (not_not.2 hr))
    exact ⟨a, by simp only [takeFrom, hf, ha]⟩

/-- A legal packet of a block that has not faulted is its command (R125). -/
theorem runPacket_eq_exec {s : State} {p : Packet} {i : Instr} (hf : s.fault = false) (hd : decodePacket p = .ok i) :
    runPacket p s = exec i s := by
  simp [runPacket, hf, hd]

/-- Settles O47: with every queue empty no port waits, and a block that no port waits for waits itself. -/
theorem blockWaitsForAPacket : Obligations.BlockWaitsForAPacket := fun _ he hq =>
  step_wait he (State.waiting_eq_nil_iff.2 hq)

/-- Settles O48: where a packet waits the arbiter answers a port that has one, and the step takes from it. -/
theorem someWaitingPortIsServed : Obligations.SomeWaitingPortIsServed := by
  rintro s he ⟨q', hq', hne⟩
  rcases s.arbitrate_spec with ⟨-, hw⟩ | ⟨k, hk, hw⟩
  · exact absurd (State.waiting_eq_nil_iff.1 hw q' hq') hne
  · obtain ⟨p, hp⟩ := Option.isSome_iff_exists.1 (State.mem_waiting.1 hw)
    obtain ⟨q, ps, hq, hp⟩ := State.front_eq_some.1 hp
    refine ⟨k, q, p, ps, hq, hp, ?_⟩
    rw [step_serve he hk]
    exact takeFrom_outcome hq hp

/-- Settles O41: both ways of taking come to `takeFrom`, and the packet taken to its command. -/
theorem stepRunsDecodedCommand : Obligations.StepRunsDecodedCommand := by
  intro s k q p ps i hf hq hp hd
  refine ⟨fun rest he => ?_, fun he hw => ?_⟩
  · have hstep : step s = takeFrom k { s with env := rest } := by simp only [step, he, perform]
    have hrun := takeFrom_outcome (s := { s with env := rest }) hq hp
    rw [hstep, ← runPacket_eq_exec (by exact hf) hd]
    exact hrun
  · rw [step_serve he (State.arbitrate_of_waiting_singleton hw), ← runPacket_eq_exec (by exact hf) hd]
    exact takeFrom_outcome hq hp

/-! ### Reset and the ports -/

/-- Settles O1: the table entries are those of Laws/Tables.lean, and the block in reset waits by O47. -/
theorem resetLeavesSpecValues : Obligations.ResetLeavesSpecValues := by
  refine ⟨fun s => ⟨rfl, fun n => ⟨lookup_lumaTable n, lookup_chromaTable n⟩, ?_, ?_, ?_, ?_, rfl, rfl, rfl, rfl, rfl,
    rfl, rfl⟩, rfl, blockWaitsForAPacket _ rfl (by decide)⟩
  all_goals exact (lookup_tableOf _ _).trans (by decide)

/-- An operation that does nothing to the element it is for does nothing to the list. -/
theorem modify_eq_self_of {α : Type} {l : List α} {k : Nat} {f : α → α} (h : ∀ a, l[k]? = some a → f a = a) :
    l.modify k f = l := by
  cases hk : l[k]? with
  | none => exact List.modify_eq_self (List.getElem?_eq_none_iff.1 hk)
  | some a =>
    obtain ⟨hlt, rfl⟩ := List.getElem?_eq_some_iff.1 hk
    rw [modify_eq_set hk, h _ hk, List.set_getElem_self]

/-- In a ledger that matches, a port that owes no response owns no frame. -/
theorem State.owned_eq_nil {s : State} {k : Nat} {l : Ledger} (h : s.ledgerMatches)
    (hr : ∀ q, s.ports[k]? = some q → q.responses = []) (hl : s.ledger[k]? = some l) : l.owned = [] := by
  have hk := congrArg (fun x => x[k]?) h
  simp only [List.getElem?_map, hl, Option.map_some] at hk
  obtain ⟨q, hq, heq⟩ := Option.map_eq_some_iff.1 hk.symm
  rw [Prod.mk.injEq, hr q hq] at heq
  exact List.length_eq_zero_iff.1 heq.2.symm

/-- Where port `k` owes no response, collecting changes nothing (log entry 17). -/
theorem State.collect_of_no_response {s : State} {k : Nat} (h : s.ledgerMatches)
    (hr : ∀ q, s.ports[k]? = some q → q.responses = []) : s.collect k = s := by
  have hports : s.ports.modify k Port.collected = s.ports :=
    modify_eq_self_of fun q hq => by rw [Port.collected, hr q hq, List.tail_nil, ← hr q hq]
  have hledger : s.ledger.modify k Ledger.collected = s.ledger :=
    modify_eq_self_of fun l hl => by
      have ho := State.owned_eq_nil h hr hl
      rw [Ledger.collected, ho, List.tail_nil, ← ho]
  rw [State.collect, hports, hledger]

/-- Settles O49: the three events are `State.send` and `State.collect`, which set the port they name. -/
theorem portsKeepOrder : Obligations.PortsKeepOrder := by
  intro s k rest
  refine ⟨fun p q he hq => ?_, fun q r rs he hq hr => ?_, fun he hl hr => ?_⟩
  · have hstep : step s = .next ({ s with env := rest }.send k p) := by simp only [step, he, perform]
    rw [hstep, State.send, modify_eq_set hq]
    rfl
  · have hstep : step s = .next ({ s with env := rest }.collect k) := by simp only [step, he, perform]
    rw [hstep, State.collect, modify_eq_set hq, Port.collected, hr]
    rfl
  · have hstep : step s = .next ({ s with env := rest }.collect k) := by simp only [step, he, perform]
    rw [hstep, State.collect_of_no_response (s := { s with env := rest }) hl hr]

/-! ### Two ports -/

/-- A legal `SETPARAM` completes (R74). -/
theorem exec_setparam_legal {s : State} {v : Word} (hv : paramLegal v = true) :
    exec (.setparam v) s = .next (({ s with param := v }.buildTables v).respond .ok 0#32) := by
  simp only [exec, execSetparam, hv, if_true]

/-- On a frame provided the accesses of a `PROCESS` complete (R39). -/
theorem State.frameAccesses_complete {s : State} {base : Word} (h : s.frameProvided base) :
    ∃ pm, s.runAccesses (s.frameAccesses base) Pixel.blank s.mem = .ok pm :=
  State.runAccesses_completes fun a ha => h _ ((s.frameAccesses_addr base a.addr).1 (List.mem_map_of_mem ha))

/-- The same answer on two ports, or twice on one, in either order. -/
theorem modify_answered_comm (ports : List Port) (r : Response) (j k : Nat) :
    (ports.modify j fun q => q.answered r).modify k (fun q => q.answered r) =
      (ports.modify k fun q => q.answered r).modify j fun q => q.answered r := by
  by_cases h : j = k
  · rw [h]
  · exact List.modify_modify_ne _ _ ports h

/-- A `PROCESS` completes in every state that has the parameters, the tables, the configuration and the memory of one it
completes in, with the same accesses and the same memory (R93). -/
theorem exec_process_congr {s u : State} {base : Word} {pm : Pixel × Memory} (hrun : s.notConfigured = false)
    (h : s.runAccesses (s.frameAccesses base) Pixel.blank s.mem = .ok pm) (hp : u.params = s.params)
    (hl : u.luma = s.luma) (hc : u.chroma = s.chroma) (hm : u.mode = s.mode) (he : u.cfgerr = s.cfgerr)
    (hg : u.geom = s.geom) (hmem : u.mem = s.mem) :
    exec (.process base) u =
      .next ({ u with mem := pm.2, busLog := u.busLog ++ (s.frameAccesses base).map Access.event }.respond .ok 0#32) := by
  have hcfg : u.notConfigured = false := by rw [State.notConfigured, hm, he]; exact hrun
  have hmade : u.runAccesses (s.frameAccesses base) Pixel.blank u.mem = .ok pm := by
    rw [State.runAccesses_congr hp hl hc, hmem, h]
  simp [exec, execProcess, hcfg, State.makeAccesses, State.frameAccesses_congr hp hm hg, hmade]

/-- Settles O56: a `PROCESS` reads nothing that a legal `SETPARAM` changes, the tables having been built already, and the
two answers are alike. -/
theorem setparamAndProcessCommute : Obligations.SetparamAndProcessCommute := by
  rintro base v s m j k hm ⟨-, hmode, hcfg, hprov⟩ ⟨hluma, hchroma⟩ hv
  have hc : s.notConfigured = false := State.notConfigured_eq_false.2 ⟨hmode ▸ hm, hcfg⟩
  obtain ⟨pm, hpm⟩ := State.frameAccesses_complete hprov
  refine ⟨_, _, _, _, exec_process_congr hc hpm rfl rfl rfl rfl rfl rfl rfl, exec_setparam_legal hv,
    exec_setparam_legal hv, exec_process_congr hc hpm rfl hluma.symm hchroma.symm rfl rfl rfl rfl, ?_⟩
  simp only [State.respond, State.buildTables, modify_answered_comm s.ports _ j k]

end Sys2Proof.Machine
end

section
/-! SUPPORT. Proofs of the statements about frame memory (20_memory.md): reads after writes, the footprint of a `PROCESS`
and when its entries are distinct, who reaches memory, and the ownership of a frame. -/

namespace Sys2Proof.Machine

open Sys2Proof.Reference

/-- Settles O57: the law of a read after a write. -/
theorem memoryReadsLastWrite : Obligations.MemoryReadsLastWrite := Memory.read_write

/-! ### The footprint of a `PROCESS` -/

/-- A unit whose accesses complete found every byte of its footprint: it reads each byte before it writes it. -/
theorem State.unitAccesses_found {s : State} {base : Word} {i j a : Nat} {px : Pixel} {m : Memory} {pm : Pixel × Memory}
    (h : s.runAccesses (s.unitAccesses base i j) px m = .ok pm) (ha : a ∈ s.unitFootprint base i j) :
    (Memory.read m a).isSome = true := by
  rw [← List.append_nil (s.unitAccesses base i j)] at h
  cases hm : s.mode with
  | unconfigured => simp [State.unitFootprint, hm] at ha
  | planar =>
    rw [State.run_planar_unit hm] at h
    simp only [State.unitFootprint, hm, List.mem_singleton] at ha
    cases hx : Memory.read m (s.planarAddr base i j) with
    | none => simp [hx] at h
    | some x => simp [ha, hx]
  | packedYUV =>
    rw [State.run_yuv_unit hm] at h
    simp only [State.unitFootprint, hm, List.mem_cons, List.not_mem_nil, or_false] at ha
    cases hx : Memory.read m (s.yAddr base i j) with
    | none => simp [hx] at h
    | some x =>
      rcases ha with rfl | rfl
      · simp [hx]
      · by_cases hc : s.cAddr base i j = s.yAddr base i j
        · simp [hc, hx]
        · simp only [hx, Memory.read_write_other m _ hc] at h
          cases hy : Memory.read m (s.cAddr base i j) with
          | none => simp [hy] at h
          | some y => rfl
  | packedRGB =>
    rw [State.run_rgb_unit hm] at h
    simp only [State.unitFootprint, hm, List.mem_cons, List.not_mem_nil, or_false] at ha
    cases hr : Memory.read m (s.rAddr base i j) with
    | none => simp [hr] at h
    | some r =>
      cases hg : Memory.read m (s.gAddr base i j) with
      | none => simp [hr, hg] at h
      | some g =>
        cases hb : Memory.read m (s.bAddr base i j) with
        | none => simp [hr, hg, hb] at h
        | some b => rcases ha with rfl | rfl | rfl <;> simp [hr, hg, hb]

/-- Units whose accesses complete, one after another, found every byte of their footprints in the memory they began with:
no byte comes to be provided on the way but one that an earlier unit wrote, and so found. -/
theorem State.unitsAccesses_found {s : State} {base : Word} {us : List (Nat × Nat)} {a : Nat} {px : Pixel} {m : Memory}
    {pm : Pixel × Memory} (h : s.runAccesses (us.flatMap fun u => s.unitAccesses base u.1 u.2) px m = .ok pm)
    (ha : a ∈ us.flatMap fun u => s.unitFootprint base u.1 u.2) : (Memory.read m a).isSome = true := by
  induction us generalizing px m with
  | nil => simp at ha
  | cons u us ih =>
    rw [List.flatMap_cons, State.runAccesses_append] at h
    rw [List.flatMap_cons, List.mem_append] at ha
    cases hu : s.runAccesses (s.unitAccesses base u.1 u.2) px m with
    | error e => simp [hu] at h
    | ok pm' =>
      simp only [hu] at h
      by_cases hau : a ∈ s.unitFootprint base u.1 u.2
      · exact State.unitAccesses_found hu hau
      · have hkept : Memory.read pm'.2 a = Memory.read m a :=
          State.runAccesses_frame (mt (s.unitAccesses_addr base u.1 u.2 a).1 hau) hu
        rw [← hkept]
        exact ih h (ha.resolve_left hau)

/-- Settles O19: a `PROCESS` that completes found its whole footprint, so this one stops, at a byte it did not find. -/
theorem processStuckOnMissingByte : Obligations.ProcessStuckOnMissingByte := by
  rintro base s hm he ⟨a, ha, hmiss⟩
  have hc : s.notConfigured = false := State.notConfigured_eq_false.2 ⟨hm, he⟩
  cases hx : exec (.process base) s with
  | next t =>
    cases exec_effect hx with
    | processNotConfigured _ hn => simp [hc] at hn
    | process _ pm _ hrun =>
      have hfound : (Memory.read s.mem a).isSome = true := State.unitsAccesses_found hrun ha
      simp [hmiss] at hfound
  | refused r => exact absurd hx (exec_not_refused _ _ r)
  | fault f =>
    obtain ⟨_, b, hi, -, rfl, hb, hbmiss⟩ := exec_fault hx
    cases hi
    exact ⟨b, hb, hbmiss, rfl⟩

/-- Settles O20: a configured `PROCESS` is its accesses and its response, and the accesses address the footprint alone. -/
theorem processChangesOnlyItsFootprint : Obligations.ProcessChangesOnlyItsFootprint := by
  intro base s t _ hm he hx
  cases exec_effect hx with
  | processNotConfigured _ hn => exact absurd hn (by simp [State.notConfigured_eq_false.2 ⟨hm, he⟩])
  | process _ pm _ hrun =>
    exact ⟨rfl, fun a ha => State.runAccesses_frame (mt (s.frameAccesses_addr base a).1 ha) hrun⟩

/-! ### Geometry that makes the footprint disjoint (R40) -/

/-- A place in rows of `w` is told by its row and its place in the row, which do not matter where there is one row. -/
theorem row_major_inj {n w i i' r r' : Nat} (hi : i < n) (hi' : i' < n) (hr : n ≤ 1 ∨ (r < w ∧ r' < w))
    (h : i * w + r = i' * w + r') : i = i' ∧ r = r' := by
  have hii : i = i' := by
    rcases hr with hn | ⟨hr, hr'⟩
    · omega
    · have hdiv : ∀ k x, x < w → (k * w + x) / w = k := fun k x hx => by
        rw [Nat.mul_comm, Nat.mul_add_div (by omega), Nat.div_eq_of_lt hx, Nat.add_zero]
      rw [← hdiv i r hr, h, hdiv i' r' hr']
  subst hii
  exact ⟨rfl, by omega⟩

/-- The shared form of the three rows of R40. A unit has its bytes at the offsets `offs` from its start, the units of a row
stand `p` apart and the rows `STRIDE`. The footprint is disjoint where the offsets are distinct, a unit fits between its
neighbours in the row, a row fits between its neighbours, and nothing wraps. -/
theorem State.geomDisjoint_of_offsets {s : State} {base : Word} {p : Nat} {offs : List Nat}
    (hunit : ∀ i j, s.unitFootprint base i j =
      offs.map fun o => wrapAW s.params (base.toNat + i * s.geom.stride.toNat + (j * p + o)))
    (hoffs : offs.Nodup) (hcol : s.geom.width.toNat ≤ 1 ∨ ∀ o ∈ offs, o < p)
    (hrow : s.geom.height.toNat ≤ 1 ∨ ∀ j < s.geom.width.toNat, ∀ o ∈ offs, j * p + o < s.geom.stride.toNat)
    (hspace : ∀ i < s.geom.height.toNat, ∀ j < s.geom.width.toNat, ∀ o ∈ offs,
      base.toNat + i * s.geom.stride.toNat + (j * p + o) < 2 ^ s.params.aw) :
    s.geomDisjoint base := by
  have hprod : s.footprint base = (s.units ×ˢ offs).map fun x =>
      wrapAW s.params (base.toNat + x.1.1 * s.geom.stride.toNat + (x.1.2 * p + x.2)) := by
    simp only [State.footprint, hunit, SProd.sprod, List.product, List.map_flatMap, List.map_map, Function.comp_def]
  have hunits : s.units.Nodup := List.nodup_range.product List.nodup_range
  rw [State.geomDisjoint, hprod]
  refine List.Nodup.map_on ?_ (hunits.product hoffs)
  rintro ⟨⟨i, j⟩, o⟩ hx ⟨⟨i', j'⟩, o'⟩ hx' heq
  simp only [List.mem_product, State.mem_units] at hx hx'
  obtain ⟨⟨hi, hj⟩, ho⟩ := hx
  obtain ⟨⟨hi', hj'⟩, ho'⟩ := hx'
  simp only [wrapAW, Nat.mod_eq_of_lt (hspace i hi j hj o ho), Nat.mod_eq_of_lt (hspace i' hi' j' hj' o' ho')] at heq
  obtain ⟨rfl, hplace⟩ := row_major_inj hi hi' (hrow.imp_right fun h => ⟨h j hj o ho, h j' hj' o' ho'⟩)
    (by omega : i * s.geom.stride.toNat + (j * p + o) = i' * s.geom.stride.toNat + (j' * p + o'))
  obtain ⟨rfl, rfl⟩ := row_major_inj hj hj' (hcol.imp_right fun h => ⟨h o ho, h o' ho'⟩) hplace
  rfl

/-- `geomDisjoint_of_offsets` with the bounds of R40: the last unit of the frame and the last offset of a unit bound the
others. -/
theorem State.geomDisjoint_of_last {s : State} {base : Word} {p last : Nat} {offs : List Nat}
    (hunit : ∀ i j, s.unitFootprint base i j =
      offs.map fun o => wrapAW s.params (base.toNat + i * s.geom.stride.toNat + (j * p + o)))
    (hoffs : offs.Nodup) (hlast : ∀ o ∈ offs, o ≤ last) (hcol : s.geom.width.toNat ≤ 1 ∨ ∀ o ∈ offs, o < p)
    (hrow : s.geom.height.toNat ≤ 1 ∨ s.geom.width.toNat = 0 ∨
      (s.geom.width.toNat - 1) * p + last + 1 ≤ s.geom.stride.toNat)
    (hspace : 1 ≤ s.geom.width.toNat → 1 ≤ s.geom.height.toNat →
      base.toNat + (s.geom.height.toNat - 1) * s.geom.stride.toNat + (s.geom.width.toNat - 1) * p + last + 1 ≤
        2 ^ s.params.aw) :
    s.geomDisjoint base := by
  have hj : ∀ j < s.geom.width.toNat, j * p ≤ (s.geom.width.toNat - 1) * p := fun j hj =>
    Nat.mul_le_mul_right p (by omega)
  refine State.geomDisjoint_of_offsets hunit hoffs hcol (hrow.imp_right fun h j hjw o ho => ?_)
    fun i hi j hjw o ho => ?_
  · have := hj j hjw
    have := hlast o ho
    omega
  · have : i * s.geom.stride.toNat ≤ (s.geom.height.toNat - 1) * s.geom.stride.toNat :=
      Nat.mul_le_mul_right _ (by omega)
    have := hj j hjw
    have := hlast o ho
    have := hspace (by omega) (by omega)
    omega

/-- Settles O27: a planar unit is one byte, at the offset 0, and units stand one apart. -/
theorem planarGeometrySufficesForDisjoint : Obligations.PlanarGeometrySufficesForDisjoint := by
  intro base s hm hrow hspace
  refine State.geomDisjoint_of_last (p := 1) (last := 0) (offs := [0])
    (fun i j => by simp [State.unitFootprint, hm, State.planarAddr]) (by simp) (by simp) (.inr (by simp)) (by omega)
    fun hw hh => ?_
  have := hspace hw hh
  omega

/-- Settles O28: a packed-YUV unit is the bytes at the offsets 0 and 1, and units stand `PSTRIDE` apart. -/
theorem packedYUVGeometrySufficesForDisjoint : Obligations.PackedYUVGeometrySufficesForDisjoint := by
  intro base s hm hcol hrow hspace
  exact State.geomDisjoint_of_last (p := s.geom.pstride.toNat) (last := 1) (offs := [0, 1])
    (fun i j => by simp [State.unitFootprint, hm, State.yAddr, State.cAddr, State.unitStart, Nat.add_assoc])
    (by simp) (by simp) (hcol.imp_right fun h => by simp; omega) (hrow.imp_right .inr) hspace

/-- Settles O29: a packed-RGB unit is the bytes at its three offsets, and units stand `PSTRIDE` apart. -/
theorem packedRGBGeometrySufficesForDisjoint : Obligations.PackedRGBGeometrySufficesForDisjoint := by
  rintro base s hm ⟨hrg, hrb, hgb⟩ hcol hrow hspace
  exact State.geomDisjoint_of_last (p := s.geom.pstride.toNat)
    (last := max s.geom.offR.toNat (max s.geom.offG.toNat s.geom.offB.toNat))
    (offs := [s.geom.offR.toNat, s.geom.offG.toNat, s.geom.offB.toNat])
    (fun i j => by simp [State.unitFootprint, hm, State.rAddr, State.gAddr, State.bAddr, State.unitStart, Nat.add_assoc])
    (by simp [BitVec.toNat_inj, hrg, hrb, hgb]) (by simp)
    (hcol.imp_right fun ⟨hr, hg, hb⟩ => by simpa [BitVec.lt_def] using ⟨hr, hg, hb⟩) (hrow.imp_right .inr) hspace

/-! ### Who reaches memory -/

/-- `t` has the memory and the record of accesses of `s`. -/
structure State.SameMemory (s t : State) : Prop where
  mem : t.mem = s.mem := by rfl
  busLog : t.busLog = s.busLog := by rfl

/-- Of the commands only `PROCESS` reaches memory (R30). -/
theorem ExecEffect.sameMemory {s t : State} {i : Instr} (h : ExecEffect s i t) (hi : ∀ base, i ≠ .process base) :
    s.SameMemory t := by
  cases h with
  | process base => exact absurd rfl (hi base)
  | _ => exact {}

theorem PacketEffect.sameMemory {s t : State} {p : Packet} (h : PacketEffect s p t)
    (hp : ∀ base, decodePacket p ≠ .ok (.process base)) : s.SameMemory t := by
  cases h with
  | faulted => exact {}
  | illegal => exact {}
  | command _ i hd _ he => exact he.sameMemory fun base hi => hp base (hi ▸ hd)

theorem CutEffect.sameMemory {n : Nat} {s t : State} {p : Packet} (h : CutEffect n s p t)
    (hp : ∀ base, decodePacket p ≠ .ok (.process base)) : s.SameMemory t := by
  cases h with
  | noAccess => exact {}
  | process base _ _ hd => exact absurd hd (hp base)

/-- A step whose packet, if it takes one, is no `PROCESS` leaves memory, but for a host's own write. -/
inductive MemoryEffect (s : State) : State → Prop where
  | keep (t : State) (ht : s.SameMemory t) : MemoryEffect s t
  | hostWrite (a : Nat) (v : Byte) (hw : s.hostWrites = some (a, v)) (t : State) (hm : t.mem = Memory.write s.mem a v)
      (hl : t.busLog = s.busLog) : MemoryEffect s t

theorem step_memory {s t : State} (hs : step s = .next t)
    (hp : ∀ p u base, s.nextPacket = some (p, u) → decodePacket p ≠ .ok (.process base)) : MemoryEffect s t := by
  cases step_effect hs with
  | serve he k p hk hf _ _ ht =>
    exact .keep _ { ht.sameMemory fun base => hp p (s.accept k) base (by simp [State.nextPacket, he, hk, hf]) with }
  | take k rest he p hf _ _ ht =>
    exact .keep _ { ht.sameMemory fun base =>
      hp p ({ s with env := rest }.accept k) base (by simp [State.nextPacket, he, hf]) with }
  | cut k n rest he p hf _ _ hc =>
    exact .keep _ { hc.sameMemory fun base =>
      hp p ({ s with env := rest }.accept k) base (by simp [State.nextPacket, he, hf]) with }
  | store a v rest he => exact .hostWrite a v (by simp [State.hostWrites, he]) _ rfl rfl
  | _ => exact .keep _ {}

/-- Settles O52: of such a step's effects only a host's write touches memory, at the address it names. -/
theorem onlyProcessReachesMemory : Obligations.OnlyProcessReachesMemory := by
  intro s t hs hp
  cases step_memory hs hp with
  | keep _ ht => exact ⟨fun a _ => by rw [ht.mem], ht.busLog⟩
  | hostWrite b v hw _ hm hl =>
    refine ⟨fun a ha => ?_, hl⟩
    have hab : a ≠ b := fun h => ha v (h ▸ hw)
    rw [hm, Memory.read_write_other s.mem v hab]

/-! ### The ownership of a frame (R38) -/

/-- A host's access outside the address space stops. -/
theorem hostAccess_outside {s : State} {a : Nat} (h : 2 ^ s.params.aw ≤ a) :
    hostAccess a s = .fault (.outsideFrameMemory a) := by
  simp [hostAccess, h]

/-- A host's access to a byte that is the block's stops. -/
theorem hostAccess_owned {s : State} {a : Nat} (h : a < 2 ^ s.params.aw) (ho : s.owns a = true) :
    hostAccess a s = .fault (.frameRace a) := by
  simp [hostAccess, Nat.not_le.2 h, ho]

/-- A host's access to any other byte is noted. -/
theorem hostAccess_free {s : State} {a : Nat} (h : a < 2 ^ s.params.aw) (ho : s.owns a = false) :
    hostAccess a s = .next (s.noteAccess a) := by
  simp [hostAccess, Nat.not_le.2 h, ho]

/-- The block does not own a byte of no frame that is still to be given back. -/
theorem State.owns_eq_false {s : State} {a : Nat} (h : ∀ l ∈ s.ledger, ∀ frame ∈ l.owned, a ∉ frame) :
    s.owns a = false := by
  rw [← Bool.not_eq_true, State.owns_iff]
  push Not
  exact h

theorem step_store {s : State} {a : Nat} {v : Byte} {rest : List Event} (he : s.env = .store a v :: rest) :
    step s = hostAccess a { s with env := rest, mem := Memory.write s.mem a v } := by
  simp only [step, he, perform, hostStore]

theorem step_load {s : State} {a : Nat} {rest : List Event} (he : s.env = .load a :: rest) :
    step s = hostAccess a { s with env := rest } := by
  simp only [step, he, perform]

/-- A write and a read differ in nothing but the memory they leave. -/
theorem step_hostEvent {s : State} {a : Nat} {v : Byte} {rest : List Event}
    (he : s.env = .store a v :: rest ∨ s.env = .load a :: rest) :
    ∃ m, step s = hostAccess a { s with env := rest, mem := m } := by
  rcases he with he | he
  · exact ⟨_, step_store he⟩
  · exact ⟨s.mem, step_load he⟩

/-- After a host's access a host has touched, of the frame of a packet that waited, the byte accessed and the bytes touched
before. -/
theorem State.mem_touchedSince_noteAccess {s : State} {k a b : Nat} {l : Ledger} (hl : s.ledger[k]? = some l)
    (ht : l.touched ≠ []) : b ∈ (s.noteAccess a).touchedSince k ↔ b = a ∨ b ∈ s.touchedSince k := by
  obtain ⟨since, later, hcons⟩ := List.exists_cons_of_ne_nil ht
  simp [State.touchedSince, hl, hcons]

/-- The frame of a waiting packet is raced after a host's access where the byte is in the frame, or it was raced before. -/
theorem hostRaces_noteAccess {s : State} {k a : Nat} {p : Packet} {l : Ledger} (hl : s.ledger[k]? = some l)
    (ht : l.touched ≠ []) : HostRaces (s.noteAccess a) k p ↔ a ∈ s.claimOf p ∨ HostRaces s k p := by
  have hclaim : (s.noteAccess a).claimOf p = s.claimOf p := rfl
  simp only [hostRaces_iff, hclaim, State.mem_touchedSince_noteAccess hl ht]
  constructor
  · rintro ⟨b, hb, rfl | hs⟩
    · exact .inl hb
    · exact .inr ⟨b, hb, hs⟩
  · rintro (ha | ⟨b, hb, hs⟩)
    · exact ⟨a, ha, .inl rfl⟩
    · exact ⟨b, hb, .inr hs⟩

/-- Once port `k`'s oldest packet was taken and answered, the bytes it claimed are the block's. -/
theorem PacketEffect.owns_claim {s t : State} {k a : Nat} {p : Packet} {l : Ledger} (hf : s.front k = some p)
    (hl : s.ledger[k]? = some l) (h : PacketEffect (s.accept k) p t) (ha : a ∈ s.claimOf p) : t.owns a = true := by
  obtain ⟨-, hledger, -⟩ := h.outline
  have hk : t.ledger[k]? = some (l.taken (s.claimOf p)) := by
    simp [hledger, hf, hl]
  exact State.owns_iff.2 ⟨_, List.mem_of_getElem? hk, s.claimOf p, by simp, ha⟩

/-- A host's access just before a waiting packet is taken: the taking stops where the byte is in the frame the packet
claims, and otherwise runs the command it would have run. -/
theorem step_access_then_take {s t : State} {k a : Nat} {v : Byte} {rest : List Event} {q : Port} {p : Packet}
    {ps : List Packet} {i : Instr} {l : Ledger}
    (he : s.env = .store a v :: .take k :: rest ∨ s.env = .load a :: .take k :: rest) (hs : step s = .next t)
    (hq : s.ports[k]? = some q) (hp : q.packets = p :: ps) (hf : s.fault = false) (hd : decodePacket p = .ok i)
    (hl : s.ledger[k]? = some l) (ht : l.touched ≠ []) :
    (a ∈ s.claimOf p → stopsRaced (step t)) ∧
      (a ∉ s.claimOf p → ¬ HostRaces s k p → step t = exec i (accepted { t with env := rest } k q p ps)) := by
  obtain ⟨m, hm⟩ := step_hostEvent he
  obtain ⟨-, -, rfl⟩ := hostAccess_ok (hm.symm.trans hs)
  have hraces : HostRaces ({ s with env := rest, mem := m }.noteAccess a) k p ↔ a ∈ s.claimOf p ∨ HostRaces s k p :=
    hostRaces_noteAccess (s := { s with env := rest, mem := m }) hl ht
  obtain ⟨hruns, hstops⟩ := takeFrom_outcome (s := { s with env := rest, mem := m }.noteAccess a) hq hp
  exact ⟨fun ha => hstops (hraces.2 (.inl ha)),
    fun ha hn => (hruns (mt hraces.1 (not_or.2 ⟨ha, hn⟩))).trans (runPacket_eq_exec (by exact hf) hd)⟩

/-- A host's access just after a packet was taken and answered stops at a byte the packet claimed. -/
theorem step_take_then_access {s t : State} {k a : Nat} {v : Byte} {rest rest' : List Event} {p : Packet} {l : Ledger}
    (he : s.env = .take k :: rest') (he' : rest' = .store a v :: rest ∨ rest' = .load a :: rest) (hs : step s = .next t)
    (hp : s.front k = some p) (hl : s.ledger[k]? = some l) (ha : a ∈ s.claimOf p) : step t = .fault (.frameRace a) := by
  obtain ⟨-, -, base, -, hfoot⟩ := State.mem_claimOf.1 ha
  rw [step_take he hp] at hs
  split at hs
  · cases hs
  · have heff := runPacket_effect hs
    have howns : t.owns a = true := heff.owns_claim (s := { s with env := rest' }) hp hl ha
    obtain ⟨-, -, henv, hparams, -⟩ := heff.outline
    have hspace : a < 2 ^ t.params.aw := by
      rw [hparams]
      exact State.footprint_inSpace hfoot
    obtain ⟨m, hm⟩ := step_hostEvent (s := t) (by rwa [henv, State.accept_env])
    exact hm.trans (hostAccess_owned hspace howns)

/-- Settles O58: an access alone by the cases of `hostAccess`, and before and after a `PROCESS` by the claim of its packet,
which is its footprint. -/
theorem hostAccessRespectsOwnership : Obligations.HostAccessRespectsOwnership := by
  intro s a v rest
  refine ⟨fun he ha ho => ?_, fun he ha ho => ?_, fun he => ⟨fun ha ho => ?_, fun ha => ?_⟩, ?_⟩
  · rw [step_store he]
    exact hostAccess_free ha (State.owns_eq_false ho)
  · rw [step_load he]
    exact hostAccess_free ha (State.owns_eq_false ho)
  · obtain ⟨m, hm⟩ := step_hostEvent he
    exact hm.trans (hostAccess_owned ha (State.owns_iff.2 ho))
  · obtain ⟨m, hm⟩ := step_hostEvent he
    exact hm.trans (hostAccess_outside ha)
  · intro k q p ps base l t hq hp hd hf hmode hcfg hl hs
    have hclaim : s.claimOf p = s.footprint base :=
      State.claimOf_process hf hd (State.notConfigured_eq_false.2 ⟨hmode, hcfg⟩)
    have hfront : s.front k = some p := State.front_eq_some.2 ⟨q, ps, hq, hp⟩
    rw [← hclaim]
    refine ⟨fun he ht => step_access_then_take he hs hq hp hf hd hl ht, fun he ha => ?_⟩
    rcases he with he | he
    · exact step_take_then_access he (.inl rfl) hs hfront hl ha
    · exact step_take_then_access (v := v) he (.inr rfl) hs hfront hl ha

end Sys2Proof.Machine
end

section
/-! SUPPORT. Proofs of the statements about the encoding (30_encoding.md): decoder and encoder are inverse, which packets
are illegal, what a packet taken is answered, and the assembler. -/

namespace Sys2Proof

open Sys2Proof.Machine

/-! ### Decode and Encode are inverse -/

theorem whenReservedZero_eq_ok {hdr : Word} {i j : Instr} :
    whenReservedZero hdr i = .ok j ↔ hdr.extractLsb 27 0 = 0#28 ∧ i = j := by
  unfold whenReservedZero
  split <;> simp [*]

/-- The four bytes of a word joined again are the word. -/
theorem quad_of_bytes (w : Word) :
    (w.extractLsb 31 24 ++ w.extractLsb 23 16 ++ w.extractLsb 15 8 ++ w.extractLsb 7 0 : BitVec 32) = w := by
  apply BitVec.eq_of_toNat_eq
  refine (toNat_quad _ _ _ _).trans ?_
  have hw := w.isLt
  simp only [toNat_field]
  omega

/-- The two halves of a word joined again are the word. -/
theorem pair_of_halves (w : Word) : (w.extractLsb 31 16 ++ w.extractLsb 15 0 : BitVec 32) = w := by
  apply BitVec.eq_of_toNat_eq
  refine (toNat_pair _ _).trans ?_
  have hw := w.isLt
  simp only [toNat_field]
  omega

/-- The fields read from the words of an encoded descriptor are the descriptor. -/
theorem descriptorOf_words (d : Descriptor) :
    descriptorOf (layoutHeader d.layout) (d.geom.height ++ d.geom.width) d.geom.stride
      (d.geom.offB ++ d.geom.offG ++ d.geom.offR ++ d.geom.pstride) = d := by
  simp only [descriptorOf, layout_layoutHeader, low_pair, high_pair, byte0_quad, byte1_quad, byte2_quad, byte3_quad]

/-- The words a descriptor was read from are those it encodes to, where the header is that of its layout code. -/
theorem encode_descriptorOf {hdr : Word} (h : hdr = layoutHeader (hdr.extractLsb 7 0)) (p1 p2 p3 : Word) :
    encode (.configure (descriptorOf hdr p1 p2 p3)) = [hdr, p1, p2, p3] := by
  simp only [encode, descriptorOf, ← h, pair_of_halves, quad_of_bytes]

theorem decodePacket_encode (i : Instr) : decodePacket (encode i) = .ok i := by
  cases i with
  | setparam v => simp [encode, decodePacket, whenReservedZero_eq_ok]
  | getparam => simp [encode, decodePacket, whenReservedZero_eq_ok]
  | configure d => simp [encode, decodePacket, descriptorOf_words]
  | process base => simp [encode, decodePacket, whenReservedZero_eq_ok]

theorem encode_of_decodePacket {p : Packet} {i : Instr} (h : decodePacket p = .ok i) : encode i = p := by
  revert h
  fun_cases decodePacket p
  case case3 hdr ho _ | case5 hdr ho | case10 hdr ho _ =>
    rw [whenReservedZero_eq_ok]
    rintro ⟨hzero, rfl⟩
    rw [encode, plainHeader_of_fields (Opcode.ofBits_eq_some ho) hzero]
  case case7 hdr ho p1 p2 p3 hzero =>
    rintro ⟨⟩
    exact encode_descriptorOf (layoutHeader_of_fields (Opcode.ofBits_eq_some ho) hzero) p1 p2 p3
  all_goals nofun

/-- A packet decodes to a command exactly when it is its encoding (R56). -/
theorem decodePacket_eq_ok_iff {p : Packet} {i : Instr} : decodePacket p = .ok i ↔ encode i = p :=
  ⟨encode_of_decodePacket, fun h => h ▸ decodePacket_encode i⟩

/-- Settles O37: each field reads back from its own place in the packet. -/
theorem decodeInvertsEncode : Obligations.DecodeInvertsEncode := decodePacket_encode

/-- Settles O38: opcode and reserved bits determine the header, and the fields fill the other words. -/
theorem encodeInvertsDecode : Obligations.EncodeInvertsDecode := fun _ _ => encode_of_decodePacket

/-- Settles O36: the worked packets are encodings, and each illegal example evaluates to its clause. -/
theorem workedPacketsDecode : Obligations.WorkedPacketsDecode :=
  ⟨decodePacket_encode (.setparam 0x400CCCCD#32), decodePacket_encode .getparam,
    decodePacket_encode (.configure ⟨3#8, ⟨2#16, 1#16, 8#32, 4#8, 2#8, 1#8, 0#8⟩⟩),
    decodePacket_encode (.configure ⟨9#8, ⟨4#16, 2#16, 6#32, 1#8, 0#8, 0#8, 0#8⟩⟩),
    decodePacket_encode (.process 0x1000#32), rfl, rfl, rfl, rfl, rfl, rfl⟩

/-! ### The table reading of the opcode map -/

/-- The header match of R53 for format C. -/
theorem toNat_div_eq_layout_iff {w : Word} : w.toNat / 256 = 0x300000 ↔ w = layoutHeader (w.extractLsb 7 0) := by
  have hw := w.isLt
  constructor
  · intro h
    have hopc : opcField w = Opcode.configure.bits :=
      BitVec.eq_of_toNat_eq ((toNat_field w 31 28).trans (show _ = 3 by omega))
    have hzero : w.extractLsb 27 8 = 0#20 :=
      BitVec.eq_of_toNat_eq ((toNat_field w 27 8).trans (show _ = 0 by omega))
    exact layoutHeader_of_fields hopc hzero
  · intro h
    rw [h]
    generalize w.extractLsb 7 0 = l
    revert l; decide

/-- The fields of a descriptor by division and remainder (R6, R52). -/
theorem descriptorOf_eq_byNumbers (h p1 p2 p3 : Word) :
    descriptorOf h p1 p2 p3 =
      { layout := BitVec.ofNat 8 (h.toNat % 256)
        geom :=
          { width := BitVec.ofNat 16 (p1.toNat % 65536)
            height := BitVec.ofNat 16 (p1.toNat / 65536)
            stride := p2
            pstride := BitVec.ofNat 8 (p3.toNat % 256)
            offR := BitVec.ofNat 8 (p3.toNat / 256 % 256)
            offG := BitVec.ofNat 8 (p3.toNat / 65536 % 256)
            offB := BitVec.ofNat 8 (p3.toNat / 16777216) } } := by
  simp only [descriptorOf, Descriptor.mk.injEq, Geometry.mk.injEq, true_and]
  refine ⟨?_, ?_, ?_, ?_, ?_, ?_, ?_⟩
  all_goals
    apply BitVec.eq_of_toNat_eq
    rw [toNat_field, BitVec.toNat_ofNat]
    omega

/-- The table reading of an encoded command is the command. -/
theorem reference_decode_encode (i : Instr) : Reference.decode (encode i) = some i := by
  cases i with
  | setparam v => simp [encode, Reference.decode, plainHeader, Opcode.bits]
  | getparam => simp [encode, Reference.decode, plainHeader, Opcode.bits]
  | configure d =>
    have hmatch : (layoutHeader d.layout).toNat / 256 = 0x300000 := toNat_div_eq_layout_iff.2 (by simp)
    simp only [encode, Reference.decode, hmatch, if_true, ← descriptorOf_eq_byNumbers, descriptorOf_words]
  | process base => simp [encode, Reference.decode, plainHeader, Opcode.bits]

/-- A packet the table reads as a command is the command's encoding. -/
theorem encode_of_reference_decode {p : Packet} {i : Instr} (h : Reference.decode p = some i) : encode i = p := by
  revert h
  fun_cases Reference.decode p
  case case1 hdr hhdr =>
    rintro ⟨⟩
    exact congrArg ([·]) (BitVec.eq_of_toNat_eq hhdr).symm
  case case3 hdr v hhdr =>
    rintro ⟨⟩
    exact congrArg ([·, v]) (BitVec.eq_of_toNat_eq hhdr).symm
  case case4 hdr base _ hhdr =>
    rintro ⟨⟩
    exact congrArg ([·, base]) (BitVec.eq_of_toNat_eq hhdr).symm
  case case6 hdr p1 p2 p3 hhdr =>
    rintro ⟨⟩
    rw [← descriptorOf_eq_byNumbers]
    exact encode_descriptorOf (toNat_div_eq_layout_iff.1 hhdr) p1 p2 p3
  all_goals nofun

/-- Settles O39: the decoder and the table reading are inverses of the same encoder. -/
theorem decodeReadsFieldsOfOpcodeMap : Obligations.DecodeReadsFieldsOfOpcodeMap := by
  intro p
  cases hd : decodePacket p with
  | ok i => rw [← encode_of_decodePacket hd, reference_decode_encode]
  | error e =>
    refine (Option.eq_none_iff_forall_ne_some.2 fun i hi => ?_).symm
    rw [← encode_of_reference_decode hi, decodePacket_encode] at hd
    cases hd

/-! ### Illegal packets -/

theorem reservedOpcode_eq (hdr : Word) : Packet.reservedOpcode hdr = (Opcode.ofBits (opcField hdr)).isNone := by
  rw [Packet.reservedOpcode, opcField]
  generalize hdr.extractLsb 31 28 = b
  revert b
  decide

theorem formatLength_eq {hdr : Word} {op : Opcode} (ho : opcField hdr = op.bits) :
    Packet.formatLength hdr = op.length := by
  rw [Packet.formatLength, ← opcField, ho]
  cases op <;> rfl

/-- A legal packet has an opcode in use, its format's length and no reserved bit set (R55). -/
theorem Packet.legal_cons_iff {hdr : Word} {ops : List Word} :
    Packet.illegal (hdr :: ops) = false ↔
      ∃ op, Opcode.ofBits (opcField hdr) = some op ∧ ops.length + 1 = op.length ∧ Packet.reservedBitSet hdr = false := by
  simp only [Packet.illegal, reservedOpcode_eq]
  cases ho : Opcode.ofBits (opcField hdr) with
  | none => simp
  | some op => simp [formatLength_eq (Opcode.ofBits_eq_some ho)]

/-- The opcode says which bits of the header must be 0 (R52). -/
theorem reservedBitSet_eq_false_iff {hdr : Word} {op : Opcode} (ho : opcField hdr = op.bits) :
    Packet.reservedBitSet hdr = false ↔
      if op = .configure then hdr.extractLsb 27 8 = 0#20 else hdr.extractLsb 27 0 = 0#28 := by
  rw [Packet.reservedBitSet, ← opcField, ho]
  cases op <;> simp [Opcode.bits]

theorem exists_decodePacket_of_legal {p : Packet} (h : Packet.illegal p = false) : ∃ i, decodePacket p = .ok i := by
  cases p with
  | nil => cases h
  | cons hdr ops =>
    obtain ⟨op, ho, hlen, hzero⟩ := Packet.legal_cons_iff.1 h
    have hbits := Opcode.ofBits_eq_some ho
    rw [reservedBitSet_eq_false_iff hbits] at hzero
    simp only [decodePacket_eq_ok_iff]
    cases op with
    | setparam =>
      obtain ⟨v, rfl⟩ := List.length_eq_one_iff.1 (Nat.succ.inj hlen)
      exact ⟨.setparam v, by rw [encode, plainHeader_of_fields hbits hzero]⟩
    | getparam =>
      obtain rfl := List.length_eq_zero_iff.1 (Nat.succ.inj hlen)
      exact ⟨.getparam, by rw [encode, plainHeader_of_fields hbits hzero]⟩
    | configure =>
      obtain ⟨p1, p2, p3, rfl⟩ := List.length_eq_three.1 (Nat.succ.inj hlen)
      exact ⟨_, encode_descriptorOf (layoutHeader_of_fields hbits hzero) p1 p2 p3⟩
    | process =>
      obtain ⟨base, rfl⟩ := List.length_eq_one_iff.1 (Nat.succ.inj hlen)
      exact ⟨.process base, by rw [encode, plainHeader_of_fields hbits hzero]⟩

/-- Every command's encoding is legal. -/
theorem legal_encode (i : Instr) : Packet.illegal (encode i) = false := by
  cases i with
  | setparam v => rfl
  | getparam => rfl
  | configure d =>
    exact Packet.legal_cons_iff.2 ⟨.configure, by simp, rfl,
      (reservedBitSet_eq_false_iff (op := .configure) (by simp)).2 (by simp)⟩
  | process base => rfl

/-- An illegal packet decodes to no command. -/
theorem exists_error_of_illegal {p : Packet} (h : Packet.illegal p = true) : ∃ e, decodePacket p = .error e := by
  cases hd : decodePacket p with
  | error e => exact ⟨e, rfl⟩
  | ok i =>
    rw [← encode_of_decodePacket hd, legal_encode] at h
    cases h

/-- Settles O40: R55 and the decoder refuse the same packets, and an unreadable packet is the fault entry. -/
theorem illegalPacketsFault : Obligations.IllegalPacketsFault := by
  intro p s hf
  refine ⟨exists_decodePacket_of_legal, fun hill => ?_⟩
  obtain ⟨e, hd⟩ := exists_error_of_illegal hill
  have hrun : runPacket p s = .next (s.raiseFault .illegalCommand) := by simp [runPacket, hf, hd]
  exact hrun

end Sys2Proof

namespace Sys2Proof.Machine

/-! ### Responses -/

/-- Settles O45: taking the packet serves its port, and every effect of a packet answers once on it. -/
theorem oneResponsePerPacket : Obligations.OneResponsePerPacket := by
  intro s t k rest q p ps he hq hp hs
  rw [step_take he (State.front_eq_some.2 ⟨q, ps, hq, hp⟩)] at hs
  split at hs
  · cases hs
  · obtain ⟨⟨r, hports⟩, -⟩ := (runPacket_effect hs).outline
    have hserved : (s.ports.set k q.served)[k]? = some q.served :=
      List.getElem?_set_self (List.getElem?_eq_some_iff.1 hq).1
    refine ⟨r, hports.trans ?_⟩
    rw [State.accept_ports, State.accept_port, modify_eq_set hq, modify_eq_set hserved, List.set_set, Port.answered,
      Port.served, hp, List.tail_cons]

/-- Settles O46: the result codes are those of R58. -/
theorem responseWordsLayout : Obligations.ResponseWordsLayout := fun _ => ⟨rfl, rfl, rfl⟩

/-! ### The assembler -/

/-- The operands a pseudo-command fixes are in range, and the others have the ranges of its expansion (R59, R60). -/
theorem wellFormed_expand (c : SourceCommand) : (expand c).wellFormed = c.wellFormed := by
  cases c <;> simp [expand, SourceCommand.wellFormed]

/-- Expansion leaves no pseudo-command to expand. -/
theorem expand_expand (c : SourceCommand) : expand (expand c) = expand c := by cases c <;> rfl

/-- Assembling sees a source command only through its expansion. -/
theorem assemble_expand (c : SourceCommand) : assemble (expand c) = assemble c := by
  rw [assemble, assemble, wellFormed_expand, sourceInstr, sourceInstr, expand_expand]

/-- Settles O59: the right sides are the expansions. -/
theorem pseudoCommandsExpand : Obligations.PseudoCommandsExpand := fun w h st ps r g b =>
  ⟨(assemble_expand (.configurePlanar w h st)).symm, (assemble_expand (.configureYuv w h st ps)).symm,
    (assemble_expand (.configureRgb w h st ps r g b)).symm, (assemble_expand .setparamDefault).symm⟩

/-- A source command of a known meaning assembles to it exactly when its operands are in range (R59). -/
theorem assemble_eq_ite {c : SourceCommand} {i : Instr} {inRange : Prop} [Decidable inRange]
    (hi : sourceInstr c = some i) (hr : c.wellFormed = true ↔ inRange) :
    assemble c = if inRange then some (encode i) else none := by
  rw [assemble, hi]
  exact if_congr hr rfl rfl

/-- Settles O60: each core command names its own meaning, and `wellFormed` its ranges. -/
theorem assemblerRefusesOutOfRange : Obligations.AssemblerRefusesOutOfRange := by
  refine ⟨fun v => ?_, rfl, fun v => ?_, fun l w h st ps r g b => ?_⟩
  · exact assemble_eq_ite rfl decide_eq_true_iff
  · exact assemble_eq_ite rfl decide_eq_true_iff
  · exact assemble_eq_ite rfl (by simp [SourceCommand.wellFormed, and_assoc])

end Sys2Proof.Machine
end

section
/-! SUPPORT. Proofs of the statements about the table generator (40_table_generator.md): the two tables, `SETPARAM` and
`GETPARAM`, and what the parameter does not reach. -/

namespace Sys2Proof.Machine

open Sys2Proof.Reference

/-! ### What the parameter does not reach -/

/-- The accesses of a command read no `PARAM` and keep it (R77). -/
theorem State.makeAccesses_withParam (p : Word) (s : State) (l : List Access) :
    State.makeAccesses { s with param := p } l = (s.makeAccesses l).map fun t => { t with param := p } := by
  have hrun : State.runAccesses { s with param := p } l Pixel.blank s.mem = s.runAccesses l Pixel.blank s.mem :=
    State.runAccesses_congr (s := s) (s' := { s with param := p }) rfl rfl rfl l Pixel.blank s.mem
  simp only [State.makeAccesses, hrun]
  cases s.runAccesses l Pixel.blank s.mem <;> rfl

/-- `PROCESS` with another `PARAM`: the fault of R90 and the accesses of the frame are the same. -/
theorem execProcess_withParam (p base : Word) (s : State) :
    execProcess base { s with param := p } = withParam p (execProcess base s) := by
  have hframe : State.frameAccesses { s with param := p } base = s.frameAccesses base :=
    State.frameAccesses_congr rfl rfl rfl base
  have hcfg : State.notConfigured { s with param := p } = s.notConfigured := rfl
  simp only [execProcess, hcfg, hframe, State.makeAccesses_withParam]
  cases s.notConfigured with
  | true => rfl
  | false => cases s.makeAccesses (s.frameAccesses base) <;> rfl

/-- `CONFIGURE` with another `PARAM`: the strategy selected is the same. -/
theorem execConfigure_withParam (p : Word) (d : Descriptor) (s : State) :
    execConfigure d { s with param := p } = withParam p (execConfigure d s) := by
  simp only [execConfigure]
  cases selectStrategy d.layout <;> rfl

/-- Settles O11: neither command reads `PARAM` and neither sets it. -/
theorem paramDoesNotReachFrames : Obligations.ParamDoesNotReachFrames := fun p s =>
  ⟨fun base => execProcess_withParam p base s, fun d => execConfigure_withParam p d s⟩

/-! ### The entry functions -/

/-- The integer form of R70 and R71 is the rounded real-number formula, for a slope of any span (R72). -/
theorem floor_rounded_eq_div (span n : ℕ) {k : ℚ} (hk : k = span) :
    ⌊((n : ℚ) * k / 255 + 16) + 1 / 2⌋ = (((2 * span * n + 255) / 510 + 16 : ℕ) : ℤ) := by
  have hform : ((n : ℚ) * k / 255 + 16) + 1 / 2 = ((2 * span * n + 255 : ℕ) : ℚ) / (510 : ℕ) + (16 : ℕ) := by
    rw [hk]; push_cast; ring
  rw [hform, Int.floor_add_natCast, Rat.floor_natCast_div_natCast]
  push_cast
  rfl

theorem lumaEntry_eq (n : Nat) : lumaEntry n = (438 * n + 255) / 510 + 16 := rfl

theorem chromaEntry_eq (n : Nat) : chromaEntry n = (448 * n + 255) / 510 + 16 := rfl

theorem lumaEntry_monotone : Monotone lumaEntry := fun n k h => by
  rw [lumaEntry_eq, lumaEntry_eq]; omega

theorem chromaEntry_monotone : Monotone chromaEntry := fun n k h => by
  rw [chromaEntry_eq, chromaEntry_eq]; omega

/-- The least index whose entry reaches `v`: `438*n + 255 ≥ 510*(v - 16)`, divided rounding up. -/
theorem exists_lumaEntry_eq {v : Nat} (h : 16 ≤ v) (h' : v ≤ 235) : ∃ n < 256, lumaEntry n = v := by
  refine ⟨(510 * (v - 16) + 182) / 438, by omega, ?_⟩
  rw [lumaEntry_eq]; omega

/-- The least index whose entry reaches `v`, as for the luma table. -/
theorem exists_chromaEntry_eq {v : Nat} (h : 16 ≤ v) (h' : v ≤ 240) : ∃ n < 256, chromaEntry n = v := by
  refine ⟨(510 * (v - 16) + 192) / 448, by omega, ?_⟩
  rw [chromaEntry_eq]; omega

/-- How `LumaEntry` compares with the identity: above it, on it and below it (R76). -/
theorem lumaEntry_compare_self (n : Nat) :
    (lumaEntry n = n ↔ 110 ≤ n ∧ n ≤ 116) ∧ (n < 110 → n < lumaEntry n) ∧ (116 < n → lumaEntry n < n) := by
  rw [lumaEntry_eq]; omega

/-- How `ChromaEntry` compares with the identity (R76). -/
theorem chromaEntry_compare_self (n : Nat) :
    (chromaEntry n = n ↔ 128 ≤ n ∧ n ≤ 135) ∧ (n < 128 → n < chromaEntry n) ∧ (135 < n → chromaEntry n < n) := by
  rw [chromaEntry_eq]; omega

/-! ### The tables -/

/-- Settles O5: the slope is that of the span 219. -/
theorem lumaTableIsRoundedFormula : Obligations.LumaTableIsRoundedFormula := by
  intro n
  rw [lookup_lumaTable, floor_rounded_eq_div 219 n.toNat (by norm_num)]
  exact ⟨rfl, rfl, lumaEntry_range n.isLt⟩

/-- Settles O6: the slope is that of the span 224. -/
theorem chromaTableIsRoundedFormula : Obligations.ChromaTableIsRoundedFormula := by
  intro n
  rw [lookup_chromaTable, floor_rounded_eq_div 224 n.toNat (by norm_num)]
  exact ⟨rfl, rfl, chromaEntry_range n.isLt⟩

section TableOfEntries

variable {t : Table} {e : Nat → Nat}

/-- A table of a monotone entry function is monotone. -/
theorem lookup_le_lookup (ht : ∀ n, (lookup t n).toNat = e n.toNat) (he : Monotone e) {n k : Byte} (h : n ≤ k) :
    lookup t n ≤ lookup t k := by
  rw [BitVec.le_def, ht, ht]
  exact he (BitVec.le_def.1 h)

/-- A value the entry function takes at some index is in the table. -/
theorem exists_lookup_eq (ht : ∀ n, (lookup t n).toNat = e n.toNat) {v : Byte} (he : ∃ n < 256, e n = v.toNat) :
    ∃ n, lookup t n = v := by
  obtain ⟨n, hn, hv⟩ := he
  refine ⟨BitVec.ofNat 8 n, BitVec.eq_of_toNat_eq ?_⟩
  rw [ht, BitVec.toNat_ofNat, Nat.mod_eq_of_lt hn, hv]

/-- A table compares with the identity as its entry function does. -/
theorem lookup_compare_self (ht : ∀ n, (lookup t n).toNat = e n.toNat) {lo hi n : Byte}
    (he : (e n.toNat = n.toNat ↔ lo.toNat ≤ n.toNat ∧ n.toNat ≤ hi.toNat) ∧
      (n.toNat < lo.toNat → n.toNat < e n.toNat) ∧ (hi.toNat < n.toNat → e n.toNat < n.toNat)) :
    (lookup t n = n ↔ lo ≤ n ∧ n ≤ hi) ∧ (n < lo → n < lookup t n) ∧ (hi < n → lookup t n < n) := by
  simpa only [← BitVec.toNat_inj, BitVec.le_def, BitVec.lt_def, ht] using he

end TableOfEntries

/-- Settles O7: each property is that of the entry function, read through the table. -/
theorem tablesMonotoneOntoFixedPoints : Obligations.TablesMonotoneOntoFixedPoints := by
  obtain ⟨hlumaFixed, hlumaSides⟩ := forall_and.1 fun n : Byte =>
    lookup_compare_self lookup_lumaTable (lo := 110#8) (hi := 116#8) (lumaEntry_compare_self n.toNat)
  obtain ⟨hchromaFixed, hchromaSides⟩ := forall_and.1 fun n : Byte =>
    lookup_compare_self lookup_chromaTable (lo := 128#8) (hi := 135#8) (chromaEntry_compare_self n.toNat)
  refine ⟨fun n k h => ⟨lookup_le_lookup lookup_lumaTable lumaEntry_monotone h,
      lookup_le_lookup lookup_chromaTable chromaEntry_monotone h⟩,
    fun v h h' => exists_lookup_eq lookup_lumaTable (exists_lumaEntry_eq h h'),
    fun v h h' => exists_lookup_eq lookup_chromaTable (exists_chromaEntry_eq h h'),
    hlumaFixed, hchromaFixed, hlumaSides, hchromaSides, ?_, ?_⟩
  all_goals exact (lookup_tableOf _ _).trans (by decide)

/-! ### SETPARAM and GETPARAM -/

/-- The legal patterns are an interval of the unsigned numbers (R11, R74). -/
theorem paramLegal_iff {v : Word} : paramLegal v = true ↔ 0x3C23D70A ≤ v.toNat ∧ v.toNat ≤ 0x41200000 := by
  simp [paramLegal, paramMinBits, paramMaxBits, BitVec.le_def]

/-- Settles O8: the two branches of `SETPARAM` are those of the statement, and its check the interval. -/
theorem setparamByLegality : Obligations.SetparamByLegality := fun v _ _ =>
  ⟨Laws.EncodedShape.setparam v, if_congr paramLegal_iff rfl rfl⟩

/-- Settles O9: `GETPARAM` is the response. -/
theorem getparamAnswersParam : Obligations.GetparamAnswersParam := fun _ _ => ⟨Laws.EncodedShape.getparam, rfl⟩

/-- A response goes to the end of those on the port of the command (R57). -/
theorem State.respond_port_answered {s : State} {q : Port} (h : s.ports[s.port]? = some q) (rc : RCode) (data : Word) :
    (s.respond rc data).ports[s.port]? = some (q.answered ⟨rc, data⟩) := by
  simp [h]

/-- Settles O10: the two answers come on the port of the command one after the other, the second with the `PARAM` that the
first command left. -/
theorem getparamReturnsLastSetValue : Obligations.GetparamReturnsLastSetValue := by
  intro v s q _ hv hq
  refine ⟨_, _, exec_setparam_legal hv, rfl, ?_⟩
  have hset := State.respond_port_answered (s := { s with param := v }.buildTables v) hq .ok 0#32
  refine (State.respond_port_answered hset .ok v).trans ?_
  simp [Port.answered]

end Sys2Proof.Machine
end

section
/-! SUPPORT. Proofs of the statements about the format dispatcher (41_format_dispatcher.md): `CONFIGURE` by its layout code
and the configuration state machine. -/

namespace Sys2Proof.Machine

open Sys2Proof.Reference

/-! ### The configuration state machine -/

/-- `UnsupportedFormatError` is the answer of `SelectStrategy` for every code but those of R54. -/
theorem selectStrategy_eq_none_iff {layout : Byte} :
    selectStrategy layout = none ↔ layout ≠ 1#8 ∧ layout ≠ 2#8 ∧ layout ≠ 3#8 := by
  constructor
  · intro h
    refine ⟨?_, ?_, ?_⟩ <;> rintro rfl <;> exact absurd h (by decide)
  · rintro ⟨h1, h2, h3⟩
    exact (if_neg h1).trans ((if_neg h2).trans (if_neg h3))

/-- R82's column for a `CONFIGURE` that succeeds. -/
theorem configNext_configure_of_supported {d : Descriptor} {m : Mode} (s : State) (h : selectStrategy d.layout = some m) :
    configNext s (.configure d) = (m, false, false) := by
  rcases selectStrategy_eq_some h with ⟨hl, rfl⟩ | ⟨hl, rfl⟩ | ⟨hl, rfl⟩ <;> simp [configNext, hl]

/-- R82's column for a `CONFIGURE` that fails. -/
theorem configNext_configure_of_unsupported {d : Descriptor} (s : State) (h : selectStrategy d.layout = none) :
    configNext s (.configure d) = (s.mode, true, false) := by
  obtain ⟨h1, h2, h3⟩ := selectStrategy_eq_none_iff.1 h
  simp [configNext, h1, h2, h3]

/-- R82's column for `PROCESS`, whose check decides `FAULT`. -/
theorem configNext_process (s : State) (base : Word) :
    configNext s (.process base) = (s.mode, s.cfgerr, s.notConfigured) := rfl

/-- Settles O13: each effect of a command has the (`MODE`, `CFGERR`, `FAULT`) of its column. -/
theorem configurationStateMachine : Obligations.ConfigurationStateMachine := by
  intro i s t hf h
  cases exec_effect h with
  | setparam v hv => simp [configNext, State.buildTables, hv, hf]
  | setparamRange v hv => simp [configNext, hv]
  | getparam => simp [configNext, hf]
  | configure d m hd => simp [configNext_configure_of_supported s hd, hf]
  | configureUnsupported d hd => simp [configNext_configure_of_unsupported s hd, hf]
  | processNotConfigured base hc => simp [configNext_process, hc]
  | process base pm hc => simp [configNext_process, hc, hf]

/-! ### CONFIGURE -/

/-- The header of format C is the opcode and the layout code in one word (R53, R81). -/
theorem layoutHeader_eq_or (layout : Byte) : layoutHeader layout = 0x30000000#32 ||| layout.setWidth 32 :=
  Option.some_inj.1 (Laws.EncodedShape.configure ⟨layout, geometryZero⟩).2

/-- `CONFIGURE` with a layout code of a strategy: the strategy, the geometry and `CFGERR` together, and `OK` (R81). -/
theorem exec_configure_of_supported {d : Descriptor} {m : Mode} (s : State) (h : selectStrategy d.layout = some m) :
    exec (.configure d) s =
      .next { s with mode := m, geom := d.geom, cfgerr := false, ports := answered s .ok 0#32 } := by
  simp only [exec, execConfigure, h]
  rfl

/-- `CONFIGURE` with any other layout code: `CFGERR` and the layout in the response, nothing else (R81, R122). -/
theorem exec_configure_of_unsupported {d : Descriptor} (s : State) (h : selectStrategy d.layout = none) :
    exec (.configure d) s =
      .next { s with cfgerr := true,
                     ports := answered s .unsupportedFormat (BitVec.ofNat 32 d.layout.toNat) } := by
  simp only [exec, execConfigure, h, State.raiseUnsupportedFormat, ← BitVec.ofNat_toNat]
  rfl

/-- Settles O12: `SelectStrategy` on each of the three codes and on the others. -/
theorem configureByLayout : Obligations.ConfigureByLayout := fun d s _ =>
  ⟨by rw [encode, layoutHeader_eq_or],
    fun h => exec_configure_of_supported s (by rw [h]; rfl),
    fun h => exec_configure_of_supported s (by rw [h]; rfl),
    fun h => exec_configure_of_supported s (by rw [h]; rfl),
    fun h1 h2 h3 => exec_configure_of_unsupported s (selectStrategy_eq_none_iff.2 ⟨h1, h2, h3⟩)⟩

end Sys2Proof.Machine
end

section
/-! SUPPORT. Proofs of the statements about `PROCESS` (42_process_frame.md): the check before the first access, the access
sequence of a frame as the loops of the pseudocode, and what a frame depends on and leaves in memory. -/

namespace Sys2Proof.Machine

open Sys2Proof.Reference

/-! ### The memory that accesses leave -/

/-- The memory that a sequence of accesses leaves; none where it finds a byte not provided. -/
def State.memoryLeft (s : State) (l : List Access) (px : Pixel) (m : Memory) : Option Memory :=
  (s.runAccesses l px m).toOption.map Prod.snd

theorem State.memoryLeft_eq_some {s : State} {l : List Access} {px : Pixel} {m m' : Memory} :
    s.memoryLeft l px m = some m' ↔ ∃ px', s.runAccesses l px m = .ok (px', m') := by
  unfold State.memoryLeft
  cases s.runAccesses l px m <;> simp [Except.toOption, Prod.ext_iff]

theorem State.memoryLeft_eq_none {s : State} {l : List Access} {px : Pixel} {m : Memory} :
    s.memoryLeft l px m = none ↔ ∃ a, s.runAccesses l px m = .error a := by
  unfold State.memoryLeft
  cases s.runAccesses l px m <;> simp [Except.toOption]

/-! ### `PROCESS` by its check and its accesses (R90) -/

theorem exec_process_notConfigured {s : State} (h : s.notConfigured = true) (base : Word) :
    exec (.process base) s = .next (s.raiseFault .notConfigured) := by
  simp [exec, execProcess, h]

/-- A configured `PROCESS` whose accesses complete: their memory, their events, and `OK`. -/
theorem exec_process_completes {s : State} {base : Word} {px : Pixel} {m : Memory} (hc : s.notConfigured = false)
    (h : s.runAccesses (s.frameAccesses base) Pixel.blank s.mem = .ok (px, m)) :
    exec (.process base) s =
      .next { s with mem := m, busLog := s.busLog ++ (s.frameAccesses base).map Access.event,
                     ports := answered s .ok 0#32 } :=
  exec_process_congr hc h rfl rfl rfl rfl rfl rfl rfl

/-- A configured `PROCESS` whose accesses find a byte not provided has no step (R39 (b)). -/
theorem exec_process_stuck {s : State} {base : Word} {a : Nat} (hc : s.notConfigured = false)
    (h : s.runAccesses (s.frameAccesses base) Pixel.blank s.mem = .error a) :
    exec (.process base) s = .fault (.memoryNotProvided a) := by
  simp [exec, execProcess, hc, State.makeAccesses, h]

theorem memoryAfter_process (s : State) (base : Word) :
    memoryAfter (exec (.process base) s) =
      if s.notConfigured then some s.mem else s.memoryLeft (s.frameAccesses base) Pixel.blank s.mem := by
  cases hc : s.notConfigured with
  | true => rw [exec_process_notConfigured hc]; rfl
  | false =>
    cases hr : s.runAccesses (s.frameAccesses base) Pixel.blank s.mem with
    | ok pm => rw [exec_process_completes hc hr, State.memoryLeft, hr]; rfl
    | error a => rw [exec_process_stuck hc hr, State.memoryLeft, hr]; rfl

/-- A frame that is ready is configured and its accesses complete. -/
theorem exec_process_of_ready {s : State} {base : Word} {mode : Mode} (h : Ready s base mode) (hm : mode ≠ .unconfigured) :
    ∃ px m, s.runAccesses (s.frameAccesses base) Pixel.blank s.mem = .ok (px, m) ∧
      exec (.process base) s =
        .next { s with mem := m, busLog := s.busLog ++ (s.frameAccesses base).map Access.event,
                       ports := answered s .ok 0#32 } := by
  have hc : s.notConfigured = false := State.notConfigured_eq_false.2 ⟨h.mode ▸ hm, h.cfgerr⟩
  obtain ⟨⟨px, m⟩, hrun⟩ := State.frameAccesses_complete h.provided
  exact ⟨px, m, hrun, exec_process_completes hc hrun⟩

/-- Settles O14: the check stands before the accesses, and the fault entry is the one of R123. -/
theorem processNotConfiguredFaults : Obligations.ProcessNotConfiguredFaults := by
  intro base s _ h
  have hc : s.notConfigured = true := by simpa [State.notConfigured] using h
  rw [exec_process_notConfigured hc]
  rfl

/-- A frame with no column or no row has no unit. -/
theorem State.frameAccesses_empty {s : State} (h : s.geom.width = 0#16 ∨ s.geom.height = 0#16) (base : Word) :
    s.frameAccesses base = [] := by
  rcases h with h | h <;> simp [State.frameAccesses, State.units, h]

/-- Settles O24: the access sequence of an empty frame is empty, whatever memory provides. -/
theorem emptyFrameMakesNoAccess : Obligations.EmptyFrameMakesNoAccess := by
  intro base s _ hm hcfg h
  have hempty := State.frameAccesses_empty h base
  rw [exec_process_completes (px := Pixel.blank) (m := s.mem) (State.notConfigured_eq_false.2 ⟨hm, hcfg⟩)
    (by rw [hempty, State.runAccesses_nil])]
  simp [hempty]

/-- Settles O18: a byte provided stays provided, and one that is not is outside the footprint. -/
theorem processCompletesOnProvidedFrame : Obligations.ProcessCompletesOnProvidedFrame := by
  intro base s mode hm h
  obtain ⟨px, m, hrun, hexec⟩ := exec_process_of_ready h hm
  refine ⟨m, hexec, fun a => ?_⟩
  cases hs : (Memory.read s.mem a).isSome with
  | true => exact State.runAccesses_provided hrun hs
  | false =>
    have ha : a ∉ s.footprint base := fun ha => by simp [h.provided a ha] at hs
    rw [← hs, State.runAccesses_frame (mt (s.frameAccesses_addr base a).1 ha) hrun]

/-! ### The loops of the pseudocode -/

/-- From every pixel and memory the accesses `l` leave the memory that `f` answers. No byte that
an earlier unit read matters (10_state.md R19). -/
def State.ActsAs (s : State) (l : List Access) (f : Memory → Option Memory) : Prop :=
  ∀ px m, s.memoryLeft l px m = f m

theorem State.ActsAs.nil (s : State) : s.ActsAs [] some := fun _ _ => rfl

theorem State.ActsAs.append {s : State} {l l' : List Access} {f f' : Memory → Option Memory} (h : s.ActsAs l f)
    (h' : s.ActsAs l' f') : s.ActsAs (l ++ l') fun m => (f m).bind f' := by
  intro px m
  simp only [← h px m, State.memoryLeft, State.runAccesses_append]
  cases s.runAccesses l px m with
  | error a => rfl
  | ok pm => exact h' pm.1 pm.2

/-- Sequences made one after another act as the loop over what each acts as, from any index on. -/
theorem State.ActsAs.forFrom {s : State} {acc : Nat → List Access} {body : Nat → Memory → Option Memory}
    (h : ∀ k, s.ActsAs (acc k) (body k)) (n i : Nat) :
    s.ActsAs ((List.range' i n).flatMap acc) (forFrom body n i) := by
  induction n generalizing i with
  | zero => exact .nil s
  | succ n ih =>
    rw [List.range'_succ, List.flatMap_cons]
    have hbody : (fun m => (body i m).bind (Reference.forFrom body n (i + 1))) = Reference.forFrom body (n + 1) i := by
      funext m
      rw [Reference.forFrom]
      cases body i m <;> rfl
    exact hbody ▸ (h i).append (ih (i + 1))

theorem State.ActsAs.forEach {s : State} {acc : Nat → List Access} {body : Nat → Memory → Option Memory}
    (h : ∀ k, s.ActsAs (acc k) (body k)) (n : Nat) : s.ActsAs ((List.range n).flatMap acc) (forEach n body) := by
  rw [List.range_eq_range']
  exact .forFrom h n 0

/-- The access sequence of a frame as two loops, rows and the units of a row (R36). -/
theorem State.frameAccesses_eq_loops (s : State) (base : Word) :
    s.frameAccesses base = (List.range s.geom.height.toNat).flatMap fun i =>
      (List.range s.geom.width.toNat).flatMap fun j => s.unitAccesses base i j := by
  simp [State.frameAccesses, State.units, List.flatMap_assoc, List.flatMap_map]

/-- A frame acts as the two loops over what its units act as. -/
theorem State.ActsAs.frame {s : State} {base : Word} {unit : Nat → Nat → Memory → Option Memory}
    (h : ∀ i j, s.ActsAs (s.unitAccesses base i j) (unit i j)) :
    s.ActsAs (s.frameAccesses base)
      (Reference.forEach s.geom.height.toNat fun i => Reference.forEach s.geom.width.toNat (unit i)) := by
  rw [State.frameAccesses_eq_loops]
  exact .forEach (fun i => .forEach (h i) _) _

/-- The events of a frame by those of its units (R36). -/
theorem State.frameAccesses_events {s : State} {base : Word} {unit : Nat → Nat → List BusEvent}
    (h : ∀ i j, (s.unitAccesses base i j).map Access.event = unit i j) :
    (s.frameAccesses base).map Access.event = frameEvents s unit := by
  simp only [State.frameAccesses_eq_loops, frameEvents, List.map_flatMap, h]

/-- A configured `PROCESS` runs as the two loops over what its units act as, with their events. -/
theorem State.ActsAs.runsAs {s : State} {base : Word} {unit : Nat → Nat → Memory → Option Memory}
    {events : Nat → Nat → List BusEvent} (h : ∀ i j, s.ActsAs (s.unitAccesses base i j) (unit i j))
    (he : ∀ i j, (s.unitAccesses base i j).map Access.event = events i j) (hc : s.notConfigured = false) :
    runsAs s base
      (Reference.forEach s.geom.height.toNat (fun i => Reference.forEach s.geom.width.toNat (unit i)) s.mem)
      (frameEvents s events) := by
  rw [← State.ActsAs.frame h Pixel.blank s.mem, ← State.frameAccesses_events he]
  cases hm : s.memoryLeft (s.frameAccesses base) Pixel.blank s.mem with
  | some m =>
    obtain ⟨px, hrun⟩ := State.memoryLeft_eq_some.1 hm
    exact exec_process_completes hc hrun
  | none =>
    obtain ⟨a, hrun⟩ := State.memoryLeft_eq_none.1 hm
    exact ⟨a, exec_process_stuck hc hrun⟩

/-- One unit of `PlanarTransform` on memory (R91). -/
def State.planarUnit (s : State) (base : Word) (i j : Nat) (m : Memory) : Option Memory :=
  (Memory.read m (s.planarAddr base i j)).map fun x => Memory.write m (s.planarAddr base i j) (lookup s.luma x)

theorem State.planar_actsAs {s : State} (hm : s.mode = .planar) (base : Word) (i j : Nat) :
    s.ActsAs (s.unitAccesses base i j) (s.planarUnit base i j) := by
  intro px m
  rw [← List.append_nil (s.unitAccesses base i j), State.memoryLeft, State.run_planar_unit hm, State.planarUnit]
  cases Memory.read m (s.planarAddr base i j) <;> rfl

/-- One unit of `PackedYUVTransform` on memory (R92). -/
def State.yuvUnit (s : State) (base : Word) (i j : Nat) (m : Memory) : Option Memory :=
  (Memory.read m (s.yAddr base i j)).bind fun x =>
    let m1 := Memory.write m (s.yAddr base i j) (lookup s.luma x)
    (Memory.read m1 (s.cAddr base i j)).map fun y => Memory.write m1 (s.cAddr base i j) (lookup s.chroma y)

theorem State.yuv_actsAs {s : State} (hm : s.mode = .packedYUV) (base : Word) (i j : Nat) :
    s.ActsAs (s.unitAccesses base i j) (s.yuvUnit base i j) := by
  intro px m
  rw [← List.append_nil (s.unitAccesses base i j), State.memoryLeft, State.run_yuv_unit hm, State.yuvUnit]
  cases Memory.read m (s.yAddr base i j) with
  | none => rfl
  | some x =>
    simp only [Option.bind_some]
    cases Memory.read (Memory.write m (s.yAddr base i j) (lookup s.luma x)) (s.cAddr base i j) <;> rfl

/-- Settles O15: the units of the frame act as the body of the loops of `PlanarTransform`, with its accesses. -/
theorem planarRunsPseudocode : Obligations.PlanarRunsPseudocode := fun base _ _ hm hcfg =>
  State.ActsAs.runsAs (State.planar_actsAs hm base) (fun i j => by rw [State.unitAccesses, hm]; rfl)
    (State.notConfigured_eq_false.2 ⟨by simp [hm], hcfg⟩)

/-- Settles O16: the units of the frame act as the body of the loops of `PackedYUVTransform`, with its accesses. -/
theorem packedYUVRunsPseudocode : Obligations.PackedYUVRunsPseudocode := fun base _ _ hm hcfg =>
  State.ActsAs.runsAs (State.yuv_actsAs hm base) (fun i j => by rw [State.unitAccesses, hm]; rfl)
    (State.notConfigured_eq_false.2 ⟨by simp [hm], hcfg⟩)

/-! ### The fields a strategy reads -/

/-- What accesses leave is decided by the bytes that their writes store. -/
theorem State.runAccesses_congr_of_sources {s u : State} {l : List Access}
    (h : ∀ v a, .write v a ∈ l → ∀ px, u.sourceByte px v = s.sourceByte px v) (px : Pixel) (m : Memory) :
    u.runAccesses l px m = s.runAccesses l px m := by
  induction l generalizing px m with
  | nil => rfl
  | cons a rest ih =>
    have hrest := ih fun v b hb => h v b (List.mem_cons_of_mem _ hb)
    have ha : u.access a px m = s.access a px m := by
      cases a with
      | read c addr => rfl
      | write v addr => simp only [State.access, h v addr List.mem_cons_self px]
    simp only [State.runAccesses, ha, hrest]

/-- A `PROCESS` that has the check, the memory and the accesses of another, and stores the same bytes, leaves the same
memory. -/
theorem memoryAfter_process_congr {s u : State} {base : Word} (hc : u.notConfigured = s.notConfigured)
    (hmem : u.mem = s.mem) (hl : u.frameAccesses base = s.frameAccesses base)
    (h : ∀ v a, .write v a ∈ s.frameAccesses base → ∀ px, u.sourceByte px v = s.sourceByte px v) :
    memoryAfter (exec (.process base) u) = memoryAfter (exec (.process base) s) := by
  simp only [memoryAfter_process, hc, hmem, hl, State.memoryLeft, State.runAccesses_congr_of_sources h]

/-- Only packed YUV stores bytes of the chroma table (R91, R92, R109). -/
theorem State.frameAccesses_source {s : State} {base : Word} {v : Source} {a : Nat} (hm : s.mode ≠ .packedYUV)
    (h : .write v a ∈ s.frameAccesses base) : v ≠ .chromaY := by
  obtain ⟨u, -, hu⟩ := List.mem_flatMap.1 h
  rintro rfl
  cases hmode : s.mode <;> simp [State.unitAccesses, hmode] at hu hm

/-- A source but `CHROMA[y]` reads the luma table and the parameters alone. -/
theorem State.sourceByte_congr {s u : State} {v : Source} (hv : v ≠ .chromaY) (hp : u.params = s.params)
    (hl : u.luma = s.luma) (px : Pixel) : u.sourceByte px v = s.sourceByte px v := by
  cases v with
  | chromaY => exact absurd rfl hv
  | lumaX => simp only [State.sourceByte, hl]
  | red => simp only [State.sourceByte, hp, hl]
  | green => simp only [State.sourceByte, hp, hl]
  | blue => simp only [State.sourceByte, hp, hl]

/-- Settles O25: with the fields changed the accesses are the same, and the sources they store do not read those fields. -/
theorem unreadFieldsDoNotMatter : Obligations.UnreadFieldsDoNotMatter := by
  intro base s c p r g b
  refine ⟨fun hm => ?_, fun hm => ?_, fun hm => ?_⟩
  · refine memoryAfter_process_congr rfl rfl ?_ fun v a hv px =>
      State.sourceByte_congr (State.frameAccesses_source (by simp [hm]) hv) (by rfl) (by rfl) px
    simp only [State.frameAccesses, State.unitAccesses, hm]
    rfl
  · refine memoryAfter_process_congr rfl rfl ?_ fun v a _ px => by cases v <;> rfl
    simp only [State.frameAccesses, State.unitAccesses, hm]
    rfl
  · exact memoryAfter_process_congr rfl rfl (State.frameAccesses_congr rfl rfl rfl base) fun v a hv px =>
      State.sourceByte_congr (State.frameAccesses_source (by simp [hm]) hv) (by rfl) (by rfl) px

/-! ### The bytes a frame reads -/

/-- Two memories hold the same bytes at the addresses of `A`. -/
def Memory.agreeOn (A : List Nat) (m m' : Memory) : Prop := ∀ a ∈ A, Memory.read m' a = Memory.read m a

theorem Memory.agreeOn.write {A : List Nat} {m m' : Memory} (h : Memory.agreeOn A m m') (addr : Nat) (v : Byte) :
    Memory.agreeOn A (Memory.write m addr v) (Memory.write m' addr v) := fun a ha => by
  rw [Memory.read_write, Memory.read_write, h a ha]

/-- Accesses inside `A` complete alike over two memories that agree on `A`, and leave memories that agree on `A`. -/
theorem State.runAccesses_agree {s : State} {A : List Nat} {l : List Access} {px px' : Pixel} {m m' n : Memory}
    (hl : ∀ a ∈ l, a.addr ∈ A) (hm : Memory.agreeOn A m m') (h : s.runAccesses l px m = .ok (px', n)) :
    ∃ n', s.runAccesses l px m' = .ok (px', n') ∧ Memory.agreeOn A n n' := by
  induction l generalizing px m m' with
  | nil => cases h; exact ⟨m', rfl, hm⟩
  | cons a rest ih =>
    have hrest : ∀ b ∈ rest, b.addr ∈ A := fun b hb => hl b (List.mem_cons_of_mem _ hb)
    cases a with
    | read c addr =>
      have hsame : Memory.read m' addr = Memory.read m addr := hm addr (hl _ List.mem_cons_self)
      simp only [State.runAccesses, State.access, hsame] at h ⊢
      cases hb : Memory.read m addr with
      | none => simp [hb] at h
      | some b =>
        simp only [hb] at h
        exact ih hrest hm h
    | write v addr => exact ih hrest (hm.write addr _) h

/-- Settles O26: the accesses of a frame stay inside its footprint, so they act alike on memories that agree there. -/
theorem frameDependsOnlyOnItsFootprint : Obligations.FrameDependsOnlyOnItsFootprint := by
  intro base s s' t hp hl hc hmode hcfg hg hagree hx
  have hcheck : s'.notConfigured = s.notConfigured := by rw [State.notConfigured, hmode, hcfg, State.notConfigured]
  cases exec_effect hx with
  | processNotConfigured _ hn => exact ⟨_, exec_process_notConfigured (hcheck.trans hn) base, hagree⟩
  | process _ pm hn hrun =>
    obtain ⟨n', hrun', hn'⟩ := State.runAccesses_agree (A := s.footprint base)
      (fun a ha => (s.frameAccesses_addr base a.addr).1 (List.mem_map_of_mem ha)) hagree hrun
    rw [← State.runAccesses_congr hp hl hc, ← State.frameAccesses_congr hp hmode hg] at hrun'
    exact ⟨_, exec_process_completes (hcheck.trans hn) hrun', hn'⟩

/-! ### Disjoint frames (R93 (d)) -/

/-- A sequence made in two parts completes where both parts do, the second from where the first ends. -/
theorem State.runAccesses_append_ok {s : State} {l l' : List Access} {px : Pixel} {m : Memory} {pm : Pixel × Memory} :
    s.runAccesses (l ++ l') px m = .ok pm ↔
      ∃ px1 m1, s.runAccesses l px m = .ok (px1, m1) ∧ s.runAccesses l' px1 m1 = .ok pm := by
  rw [State.runAccesses_append]
  cases s.runAccesses l px m <;> simp [Prod.ext_iff]

/-- The accesses of some units leave every byte outside the footprints of these. -/
theorem State.units_keep {s : State} {base : Word} {us : List (Nat × Nat)} {A : List Nat} {px px' : Pixel} {m n : Memory}
    (hA : List.Disjoint A (us.flatMap fun u => s.unitFootprint base u.1 u.2))
    (h : s.runAccesses (us.flatMap fun u => s.unitAccesses base u.1 u.2) px m = .ok (px', n)) :
    Memory.agreeOn A m n := by
  refine fun a ha => State.runAccesses_frame (fun hmem => hA ha ?_) h
  rw [List.map_flatMap, List.mem_flatMap] at hmem
  obtain ⟨u, hu, hau⟩ := hmem
  exact List.mem_flatMap.2 ⟨u, hu, (s.unitAccesses_addr base u.1 u.2 a).1 hau⟩

/-- On a disjoint frame each unit leaves in its bytes what it leaves there when it acts alone on the memory the frame
began with: no other unit reaches them. -/
theorem State.unit_of_disjoint_frame {s : State} {base : Word} {px px' : Pixel} {m n : Memory} {i j : Nat}
    (hd : s.geomDisjoint base) (h : s.runAccesses (s.frameAccesses base) px m = .ok (px', n))
    (hi : i < s.geom.height.toNat) (hj : j < s.geom.width.toNat) :
    ∃ px1 k, s.memoryLeft (s.unitAccesses base i j) px1 m = some k ∧ Memory.agreeOn (s.unitFootprint base i j) k n := by
  obtain ⟨before, after, hunits⟩ := List.append_of_mem (State.mem_units.2 ⟨hi, hj⟩ : (i, j) ∈ s.units)
  simp only [State.geomDisjoint, State.footprint, hunits, List.flatMap_append, List.flatMap_cons] at hd
  simp only [State.frameAccesses, hunits, List.flatMap_append, List.flatMap_cons] at h
  obtain ⟨px1, m1, hbefore, h⟩ := State.runAccesses_append_ok.1 h
  obtain ⟨px2, m2, hunit, hafter⟩ := State.runAccesses_append_ok.1 h
  have hdbefore := (List.disjoint_append_right.1 (List.disjoint_of_nodup_append hd)).1.symm
  have hdafter := List.disjoint_of_nodup_append (List.Nodup.of_append_right hd)
  have hsame : Memory.agreeOn (s.unitFootprint base i j) m1 m := fun a ha => (State.units_keep hdbefore hbefore a ha).symm
  obtain ⟨k, hk, hagree⟩ := State.runAccesses_agree
    (fun a ha => (s.unitAccesses_addr base i j a.addr).1 (List.mem_map_of_mem ha)) hsame hunit
  exact ⟨px1, k, State.memoryLeft_eq_some.2 ⟨px2, hk⟩, fun a ha =>
    (State.units_keep hdafter hafter a ha).trans (hagree a ha).symm⟩

/-- Settles O21: alone, a unit leaves `LUMA` of its byte. -/
theorem planarResultOnDisjointFrame : Obligations.PlanarResultOnDisjointFrame := by
  intro base s h hd
  obtain ⟨px, m, hrun, hexec⟩ := exec_process_of_ready h (by decide)
  refine ⟨_, hexec, fun i j hi hj => ?_⟩
  obtain ⟨px1, k, hk, hagree⟩ := State.unit_of_disjoint_frame hd hrun hi hj
  rw [State.planar_actsAs h.mode base i j px1 s.mem, State.planarUnit, Option.map_eq_some_iff] at hk
  obtain ⟨x, hx, rfl⟩ := hk
  have hleft := hagree (s.planarAddr base i j) (by simp [State.unitFootprint, h.mode])
  exact ⟨x, hx, hleft.trans (Memory.read_write_same _ _ _)⟩

/-- The bytes of a unit of a disjoint frame are distinct. -/
theorem State.unitFootprint_nodup {s : State} {base : Word} {i j : Nat} (hd : s.geomDisjoint base)
    (hi : i < s.geom.height.toNat) (hj : j < s.geom.width.toNat) : (s.unitFootprint base i j).Nodup :=
  (List.nodup_flatMap.1 hd).1 (i, j) (State.mem_units.2 ⟨hi, hj⟩)

/-- Settles O22: alone, a unit leaves `LUMA` and `CHROMA` of its two bytes, which are distinct. -/
theorem packedYUVResultOnDisjointFrame : Obligations.PackedYUVResultOnDisjointFrame := by
  intro base s h hd
  obtain ⟨px, m, hrun, hexec⟩ := exec_process_of_ready h (by decide)
  refine ⟨_, hexec, fun i j hi hj => ?_⟩
  have hfoot : s.unitFootprint base i j = [s.yAddr base i j, s.cAddr base i j] := by rw [State.unitFootprint, h.mode]
  have hne : s.yAddr base i j ≠ s.cAddr base i j := by
    simpa [hfoot] using State.unitFootprint_nodup hd hi hj
  obtain ⟨px1, k, hk, hagree⟩ := State.unit_of_disjoint_frame hd hrun hi hj
  rw [State.yuv_actsAs h.mode base i j px1 s.mem, State.yuvUnit, Option.bind_eq_some_iff] at hk
  obtain ⟨x, hx, hk⟩ := hk
  simp only [Memory.read_write_other s.mem _ hne.symm, Option.map_eq_some_iff] at hk
  obtain ⟨y, hy, rfl⟩ := hk
  have hfirst := hagree (s.yAddr base i j) (by simp [hfoot])
  have hsecond := hagree (s.cAddr base i j) (by simp [hfoot])
  rw [Memory.read_write_other _ _ hne, Memory.read_write_same] at hfirst
  rw [Memory.read_write_same] at hsecond
  exact ⟨x, y, hx, hy, hfirst, hsecond⟩

end Sys2Proof.Machine
end

section
/-! SUPPORT. Proofs of the statements about packed RGB and its matrices (43_packed_rgb_colormatrix.md): the row sums and the
clamp, the ranges of the sums, and the packed-RGB frame as the loops of the pseudocode. -/

namespace Sys2Proof.Machine

open Sys2Proof.Reference

/-! ### Row sums, their division by 256 and the clamp (R106, R107) -/

theorem byteInt_range (b : Byte) : 0 ≤ byteInt b ∧ byteInt b ≤ 255 := by
  have := b.isLt
  simp only [byteInt, Int.ofNat_eq_natCast]
  omega

theorem applyRow_eq_ediv (c : CoefRow) (v1 v2 v3 : Int) : applyRow c v1 v2 v3 = rowSum c v1 v2 v3 / 256 :=
  Int.fdiv_eq_ediv_of_nonneg _ (by decide)

/-- Settles O31: division of integers rounding down is the floor of the rational quotient. -/
theorem applyMatrixFloorsExactSums : Obligations.ApplyMatrixFloorsExactSums := by
  refine ⟨fun c v1 v2 v3 => ?_, fun _ _ _ _ => rfl, by decide, by decide, by decide⟩
  rw [applyRow_eq_ediv]
  exact (Rat.floor_intCast_div_natCast _ 256).symm

theorem clamp8_of_neg {x : Int} (h : x < 0) : clamp8 x = 0#8 := if_pos h

theorem clamp8_of_gt {x : Int} (h : 255 < x) : clamp8 x = 255#8 := by
  rw [clamp8, if_neg (by omega), if_pos h]

theorem toNat_clamp8 {x : Int} (h : 0 ≤ x) (h' : x ≤ 255) : ((clamp8 x).toNat : Int) = x := by
  rw [clamp8, if_neg (by omega), if_neg (by omega), BitVec.toNat_ofNat]
  omega

/-- Settles O32: the three ranges of R107. -/
theorem clamp8Saturates : Obligations.Clamp8Saturates := fun _ => ⟨clamp8_of_neg, clamp8_of_gt, toNat_clamp8⟩

/-! ### Magnitudes and ranges of the sums (R108, R110) -/

/-- The sum of a row is at most the sum of its terms' magnitudes; `V` bounds the second and third input. -/
theorem abs_rowSum_le (c : CoefRow) {v1 v2 v3 U V : Int} (h1 : |v1| ≤ U) (h2 : |v2| ≤ V) (h3 : |v3| ≤ V) :
    |rowSum c v1 v2 v3| ≤ |c.c0| * U + (|c.c1| + |c.c2|) * V + |c.c3| :=
  calc |rowSum c v1 v2 v3| ≤ |c.c0 * v1| + |c.c1 * v2| + |c.c2 * v3| + |c.c3| :=
        (abs_add_le _ _).trans (add_le_add_left (abs_add_three _ _ _) _)
    _ ≤ |c.c0| * U + |c.c1| * V + |c.c2| * V + |c.c3| := by
        simp only [abs_mul]
        gcongr
    _ = |c.c0| * U + (|c.c1| + |c.c2|) * V + |c.c3| := by ring

theorem abs_byteInt_le (b : Byte) : |byteInt b| ≤ 255 := by
  obtain ⟨h0, h255⟩ := byteInt_range b
  rwa [abs_of_nonneg h0]

theorem abs_rowSum_lt_of_rowFitsFwd {c : CoefRow} (h : rowFitsFwd c) (r g b : Byte) :
    |rowSum c (byteInt r) (byteInt g) (byteInt b)| < 2 ^ 31 := by
  have hsum := abs_rowSum_le c (abs_byteInt_le r) (abs_byteInt_le g) (abs_byteInt_le b)
  unfold rowFitsFwd at h
  linarith

/-- Settles O34: each sum is at most the magnitude that `NoOverflow32` bounds for its row. -/
theorem sumsFitAccumulatorUnderNoOverflow : Obligations.SumsFitAccumulatorUnderNoOverflow := by
  intro p vmax r g b y2 hchroma ⟨⟨hY, hCb, hCr⟩, hR, hG, hB⟩
  obtain ⟨hcb, hcr⟩ := hchroma r g b
  have hinv {c : CoefRow} (h : rowFitsInv vmax c) := (abs_rowSum_le c (abs_byteInt_le y2) hcb hcr).trans_lt h
  exact ⟨⟨abs_rowSum_lt_of_rowFitsFwd hY r g b, abs_rowSum_lt_of_rowFitsFwd hCb r g b,
    abs_rowSum_lt_of_rowFitsFwd hCr r g b⟩, hinv hR, hinv hG, hinv hB⟩

/-- The forward sums of the default coefficients: each bound is met where every byte is 0 or 255. -/
theorem rowSum_coefFwdDefault_range (r g b : Byte) :
    (4096 ≤ rowSum coefFwdDefault.row0 (byteInt r) (byteInt g) (byteInt b) ∧
      rowSum coefFwdDefault.row0 (byteInt r) (byteInt g) (byteInt b) ≤ 60196) ∧
    (4208 ≤ rowSum coefFwdDefault.row1 (byteInt r) (byteInt g) (byteInt b) ∧
      rowSum coefFwdDefault.row1 (byteInt r) (byteInt g) (byteInt b) ≤ 61328) ∧
    (4208 ≤ rowSum coefFwdDefault.row2 (byteInt r) (byteInt g) (byteInt b) ∧
      rowSum coefFwdDefault.row2 (byteInt r) (byteInt g) (byteInt b) ≤ 61328) := by
  have := byteInt_range r
  have := byteInt_range g
  have := byteInt_range b
  simp only [rowSum, coefFwdDefault]
  omega

theorem applyRow_range {c : CoefRow} {v1 v2 v3 lo hi : Int} (h : lo ≤ rowSum c v1 v2 v3 ∧ rowSum c v1 v2 v3 ≤ hi) :
    lo / 256 ≤ applyRow c v1 v2 v3 ∧ applyRow c v1 v2 v3 ≤ hi / 256 := by
  rw [applyRow_eq_ediv]
  omega

/-- The remapped luma of a `Y` in 16..235 lies between the entries at the two ends (R110). -/
theorem lookup_lumaTable_clamp8_range {y : Int} (h : 16 ≤ y) (h' : y ≤ 235) :
    30 ≤ (lookup lumaTable (clamp8 y)).toNat ∧ (lookup lumaTable (clamp8 y)).toNat ≤ 218 := by
  have hy := toNat_clamp8 (by omega : 0 ≤ y) (by omega)
  rw [lookup_lumaTable]
  exact ⟨lumaEntry_monotone (by omega : 16 ≤ (clamp8 y).toNat), lumaEntry_monotone (by omega : (clamp8 y).toNat ≤ 235)⟩

/-- Settles O33: the forward ranges divided by 256, and the inverse sums by the magnitudes of their terms. -/
theorem defaultSumsStayInRange : Obligations.DefaultSumsStayInRange := by
  intro p r g b y2 hfwd hinv
  rw [hfwd, hinv]
  obtain ⟨hsumY, hsumCb, hsumCr⟩ := rowSum_coefFwdDefault_range r g b
  obtain ⟨hY, hY'⟩ := applyRow_range hsumY
  obtain ⟨hCb, hCb'⟩ := applyRow_range hsumCb
  obtain ⟨hCr, hCr'⟩ := applyRow_range hsumCr
  obtain ⟨hluma, hluma'⟩ := lookup_lumaTable_clamp8_range hY hY'
  have habsCb : |applyRow coefFwdDefault.row1 (byteInt r) (byteInt g) (byteInt b)| ≤ 239 := abs_le.2 ⟨by omega, hCb'⟩
  have habsCr : |applyRow coefFwdDefault.row2 (byteInt r) (byteInt g) (byteInt b)| ≤ 239 := abs_le.2 ⟨by omega, hCr'⟩
  have hsum (c : CoefRow) := abs_rowSum_le c (abs_byteInt_le y2) habsCb habsCr
  exact ⟨hsumY.1, hsumY.2, hsumCb.1, hsumCb.2, hsumCr.1, hsumCr.2, hY, hY', toNat_clamp8 (by omega) (by omega),
    hluma, hluma', hCb, hCb', hCr, hCr', (hsum _).trans_lt (by decide), (hsum _).trans_lt (by decide),
    (hsum _).trans_lt (by decide)⟩

/-- Settles O35: the worked pixels of R109 and R110 and the round trips of R111, each computed. -/
theorem rgbPixelWorkedValues : Obligations.RgbPixelWorkedValues := by
  unfold Obligations.RgbPixelWorkedValues
  simp only [rgbPixel, lumaTable, lookup_tableOf]
  decide

/-! ### The packed-RGB frame (R109) -/

/-- The pseudocode's clamp, by minimum and maximum, is that of R107. -/
theorem clamp_eq_clamp8 (x : Int) : clamp x = clamp8 x := by
  apply BitVec.eq_of_toNat_eq
  rw [clamp, clampNat, BitVec.toNat_ofNat]
  rcases lt_or_ge x 0 with h | h
  · rw [clamp8_of_neg h, BitVec.toNat_ofNat]
    omega
  · rcases lt_or_ge 255 x with h' | h'
    · rw [clamp8_of_gt h', BitVec.toNat_ofNat]
      omega
    · have := toNat_clamp8 h h'
      omega

/-- The pseudocode of `RGBPixel` is the model's, over the state's parameters and luma table. -/
theorem pixel_eq_rgbPixel (s : State) (r g b : Byte) : pixel s r g b = rgbPixel s.params s.luma r g b := by
  have hrow (c : CoefRow) (v1 v2 v3 : Int) : row c v1 v2 v3 = applyRow c v1 v2 v3 := (applyRow_eq_ediv c v1 v2 v3).symm
  simp only [pixel, rgbPixel, applyMatrix, hrow, clamp_eq_clamp8]
  rfl

/-- One unit of `PackedRGBTransform` on memory (R109). -/
def State.rgbUnit (s : State) (base : Word) (i j : Nat) (m : Memory) : Option Memory :=
  (Memory.read m (s.rAddr base i j)).bind fun r =>
    (Memory.read m (s.gAddr base i j)).bind fun g =>
      (Memory.read m (s.bAddr base i j)).map fun b =>
        Memory.write (Memory.write (Memory.write m (s.rAddr base i j) (pixel s r g b).1)
          (s.gAddr base i j) (pixel s r g b).2.1) (s.bAddr base i j) (pixel s r g b).2.2

theorem State.rgb_actsAs {s : State} (hm : s.mode = .packedRGB) (base : Word) (i j : Nat) :
    s.ActsAs (s.unitAccesses base i j) (s.rgbUnit base i j) := by
  intro px m
  rw [← List.append_nil (s.unitAccesses base i j), State.memoryLeft, State.run_rgb_unit hm, State.rgbUnit]
  simp only [pixel_eq_rgbPixel]
  cases Memory.read m (s.rAddr base i j) with
  | none => rfl
  | some r =>
    cases Memory.read m (s.gAddr base i j) with
    | none => rfl
    | some g => cases Memory.read m (s.bAddr base i j) <;> rfl

/-- Settles O17: the units of the frame act as the body of the loops of `PackedRGBTransform`, with its accesses. -/
theorem packedRGBRunsPseudocode : Obligations.PackedRGBRunsPseudocode := fun base _ _ hm hcfg =>
  State.ActsAs.runsAs (State.rgb_actsAs hm base) (fun i j => by rw [State.unitAccesses, hm]; rfl)
    (State.notConfigured_eq_false.2 ⟨by simp [hm], hcfg⟩)

/-- What a packed-RGB unit that completes on three distinct bytes found in them and left in them. -/
theorem State.rgbUnit_eq_some {s : State} {base : Word} {i j : Nat} {m k : Memory}
    (hd : [s.rAddr base i j, s.gAddr base i j, s.bAddr base i j].Nodup) (h : s.rgbUnit base i j m = some k) :
    ∃ r g b, Memory.read m (s.rAddr base i j) = some r ∧ Memory.read m (s.gAddr base i j) = some g ∧
      Memory.read m (s.bAddr base i j) = some b ∧ Memory.read k (s.rAddr base i j) = some (pixel s r g b).1 ∧
      Memory.read k (s.gAddr base i j) = some (pixel s r g b).2.1 ∧
      Memory.read k (s.bAddr base i j) = some (pixel s r g b).2.2 := by
  simp only [State.rgbUnit, Option.bind_eq_some_iff, Option.map_eq_some_iff] at h
  obtain ⟨r, hr, g, hg, b, hb, rfl⟩ := h
  obtain ⟨⟨hrg, hrb⟩, hgb⟩ : (s.rAddr base i j ≠ s.gAddr base i j ∧ s.rAddr base i j ≠ s.bAddr base i j) ∧
      s.gAddr base i j ≠ s.bAddr base i j := by simpa using hd
  refine ⟨r, g, b, hr, hg, hb, ?_, ?_, Memory.read_write_same _ _ _⟩
  · rw [Memory.read_write_other _ _ hrb, Memory.read_write_other _ _ hrg, Memory.read_write_same]
  · rw [Memory.read_write_other _ _ hgb, Memory.read_write_same]

/-- Settles O23: alone, a unit leaves `RGBPixel` of its three bytes, which are distinct. -/
theorem packedRGBResultOnDisjointFrame : Obligations.PackedRGBResultOnDisjointFrame := by
  intro base s h hd
  obtain ⟨px, m, hrun, hexec⟩ := exec_process_of_ready h (by decide)
  refine ⟨_, hexec, fun i j hi hj => ?_⟩
  have hfoot : s.unitFootprint base i j = [s.rAddr base i j, s.gAddr base i j, s.bAddr base i j] := by
    rw [State.unitFootprint, h.mode]
  obtain ⟨px1, k, hk, hagree⟩ := State.unit_of_disjoint_frame hd hrun hi hj
  rw [State.rgb_actsAs h.mode base i j px1 s.mem] at hk
  obtain ⟨r, g, b, hr, hg, hb, hr', hg', hb'⟩ := State.rgbUnit_eq_some (hfoot ▸ State.unitFootprint_nodup hd hi hj) hk
  simp only [hfoot, Memory.agreeOn, List.forall_mem_cons] at hagree
  obtain ⟨hsameR, hsameG, hsameB, -⟩ := hagree
  exact ⟨r, g, b, hr, hg, hb, hsameR.trans hr', hsameG.trans hg', hsameB.trans hb'⟩

end Sys2Proof.Machine
end

section
/-! SUPPORT. Proofs of the statements about faults (60_exceptions.md): the entry of a fault, and the faulted block. -/

namespace Sys2Proof.Machine

open Sys2Proof.Reference

/-! ### The entry of a fault (R123, R128) -/

/-- The code of a cause is never that of a block with no fault (R121). -/
theorem FaultCause.code_ne_zero (c : FaultCause) : c.code ≠ 0#2 := by cases c <;> decide

/-- The fault entry written out: the code recorded is the code answered (R123). -/
theorem State.raiseFault_eq (s : State) (c : FaultCause) :
    s.raiseFault c =
      { s with fault := true, fcode := c.code, ports := answered s .fault (BitVec.ofNat 32 c.code.toNat) } := by
  rw [BitVec.ofNat_toNat]
  rfl

/-- Of the effects of a command only the fault entry sets `FAULT`. -/
theorem ExecEffect.eq_raiseFault {s t : State} {i : Instr} (h : ExecEffect s i t) (hf : s.fault = false)
    (ht : t.fault = true) : ∃ c, t = s.raiseFault c := by
  cases h with
  | setparamRange => exact ⟨.paramRange, rfl⟩
  | processNotConfigured => exact ⟨.notConfigured, rfl⟩
  | _ => exact absurd (hf.symm.trans ht) (by decide)

/-- A packet that makes a block fault is the fault entry: illegal itself, or a command that fails its check (R125). -/
theorem PacketEffect.eq_raiseFault {s t : State} {p : Packet} (h : PacketEffect s p t) (hf : s.fault = false)
    (ht : t.fault = true) : ∃ c, t = s.raiseFault c := by
  cases h with
  | faulted hf' => exact absurd (hf.symm.trans hf') (by decide)
  | illegal => exact ⟨.illegalCommand, rfl⟩
  | command _ _ _ _ he => exact he.eq_raiseFault hf ht

/-- Settles O42: what faults is the one fault entry, for some cause, and no cause has the code 0. -/
theorem faultEntryIsTheOnlyEffect : Obligations.FaultEntryIsTheOnlyEffect := by
  intro p s t hf hs ht
  obtain ⟨c, rfl⟩ := (runPacket_effect hs).eq_raiseFault hf ht
  exact ⟨c.code, c.code_ne_zero, s.raiseFault_eq c⟩

/-! ### The faulted block (R124) -/

/-- The answer of a faulted block written out: `FCODE` as the data word (R124). -/
theorem State.answerFaulted_eq (s : State) :
    s.answerFaulted = { s with ports := answered s .fault (BitVec.ofNat 32 s.fcode.toNat) } := by
  rw [BitVec.ofNat_toNat]
  rfl

/-- The faulted answer comes before the packet is decoded (R125 (1)). -/
theorem runPacket_of_fault {p : Packet} {s : State} (hf : s.fault = true) : runPacket p s = .next s.answerFaulted :=
  if_pos hf

theorem PacketEffect.eq_answerFaulted {s t : State} {p : Packet} (h : PacketEffect s p t) (hf : s.fault = true) :
    t = s.answerFaulted := by
  cases h with
  | faulted => rfl
  | illegal hf' => exact absurd (hf.symm.trans hf') (by decide)
  | command hf' => exact absurd (hf.symm.trans hf') (by decide)

/-- Settles O43: a packet taken is only answered, hosts reach nothing of the block but its ports, and of their events only
a write changes memory, at its own address. -/
theorem faultedBlockOnlyAnswers : Obligations.FaultedBlockOnlyAnswers := by
  refine ⟨fun p s hf => by rw [runPacket_of_fault hf, s.answerFaulted_eq], fun s t hf hn hs => ?_⟩
  cases step_effect hs with
  | serve _ _ _ _ _ _ _ ht =>
    rw [ht.eq_answerFaulted hf]
    exact ⟨rfl, fun _ _ => rfl⟩
  | take _ _ _ _ _ _ _ ht =>
    rw [ht.eq_answerFaulted hf]
    exact ⟨rfl, fun _ _ => rfl⟩
  | reset _ he => simp [State.resetNext, he] at hn
  | cut _ _ _ he => simp [State.resetNext, he] at hn
  | cutNone _ _ _ he => simp [State.resetNext, he] at hn
  | store b v _ he =>
    refine ⟨rfl, fun a ha => Memory.read_write_other s.mem v ?_⟩
    rintro rfl
    exact ha v (by simp [State.hostWrites, he])
  | _ => exact ⟨rfl, fun _ _ => rfl⟩

end Sys2Proof.Machine
end

section
/-! SUPPORT. Proofs of the statements about reset and repeated frames (70_reset_and_hazards.md): the reset input, a command
cut short by reset, and a second pass over a planar frame. -/

namespace Sys2Proof.Machine

open Sys2Proof.Reference

/-! ### Reset between commands (R140, R141) -/

/-- Reset in the words of the statements (R24). -/
theorem State.applyReset_eq_resetOver (s : State) : s.applyReset = resetOver s := rfl

/-- Settles O2: both events come to `State.applyReset`. -/
theorem resetEventGivesResetState : Obligations.ResetEventGivesResetState := by
  rintro s rest (he | ⟨k, n, he, hp⟩)
  · simp only [step, he, perform, State.applyReset_eq_resetOver]
  · simp only [step, he, perform, cutFrom, State.front_env, hp, State.applyReset_eq_resetOver]

/-! ### A command cut short by reset (R142) -/

/-- A cut packet that finds no race is cut in the state that its taking leaves. -/
theorem step_cut_of_not_hostRaces {s : State} {k n : Nat} {rest : List Event} {p : Packet}
    (he : s.env = .cut k n :: rest) (hp : s.front k = some p) (hr : ¬ HostRaces s k p) :
    step s = cutPacket n p ({ s with env := rest }.accept k) := by
  rw [step_cut he hp, State.raced_eq_none_iff.2 hr]

/-- A cut packet whose frame a host has touched stops the run (R38). -/
theorem step_cut_of_hostRaces {s : State} {k n : Nat} {rest : List Event} {p : Packet}
    (he : s.env = .cut k n :: rest) (hp : s.front k = some p) (hr : HostRaces s k p) : stopsRaced (step s) := by
  obtain ⟨a, ha⟩ := Option.ne_none_iff_exists'.1 (mt State.raced_eq_none_iff.1 (not_not.2 hr))
  exact ⟨a, by rw [step_cut he hp, ha]⟩

/-- A packet that claims no byte is raced by no host. -/
theorem not_hostRaces_of_claimOf_eq_nil {s : State} {k : Nat} {p : Packet} (h : s.claimOf p = []) :
    ¬ HostRaces s k p := by
  simp [hostRaces_iff, h]

/-- The accesses of a `PROCESS` up to the `n`-th stay inside its footprint. -/
theorem State.frameAccesses_take_addr {s : State} {base : Word} {n : Nat} {a : Access}
    (h : a ∈ (s.frameAccesses base).take n) : a.addr ∈ s.footprint base :=
  (s.frameAccesses_addr base a.addr).1 (List.mem_map_of_mem (List.mem_of_mem_take h))

/-- The taking of a packet does not change which accesses a frame makes. -/
theorem State.frameAccesses_of_taken (s : State) (rest : List Event) (k : Nat) (base : Word) :
    ({ s with env := rest }.accept k).frameAccesses base = s.frameAccesses base :=
  State.frameAccesses_congr rfl rfl rfl base

/-- Nor does it change what accesses do. -/
theorem State.runAccesses_of_taken (s : State) (rest : List Event) (k : Nat) (l : List Access) (px : Pixel) (m : Memory) :
    ({ s with env := rest }.accept k).runAccesses l px m = s.runAccesses l px m :=
  State.runAccesses_congr (by rfl) (by rfl) (by rfl) l px m

/-- A `PROCESS` that runs and is cut short by reset: the reset state over the memory and the record of its first `n`
accesses, made as they would be in the state before the packet was taken. -/
theorem step_cut_process {s : State} {k n : Nat} {rest : List Event} {p : Packet} {base : Word}
    (he : s.env = .cut k n :: rest) (hp : s.front k = some p) (hd : decodePacket p = .ok (.process base))
    (hf : s.fault = false) (hc : s.notConfigured = false) (hr : ¬ HostRaces s k p) :
    step s =
      match s.runAccesses ((s.frameAccesses base).take n) Pixel.blank s.mem with
      | .ok made =>
        .next (resetOver
          { s with env := rest, taken := s.taken + 1, mem := made.2,
                   busLog := s.busLog ++ ((s.frameAccesses base).map Access.event).take n })
      | .error a => .fault (.memoryNotProvided a) := by
  rw [step_cut_of_not_hostRaces he hp hr, cutPacket_process (by exact hf) hd (by exact hc), State.frameAccesses_of_taken,
    State.runAccesses_of_taken, List.map_take]
  rfl

/-- Settles O54: a cut `PROCESS` that runs is its first accesses and reset, every other packet claims and accesses no byte,
and the accesses stay inside the footprint. -/
theorem cutCommandMakesAPrefix : Obligations.CutCommandMakesAPrefix := by
  intro s k n rest q p ps he hq hps
  have hp : s.front k = some p := State.front_eq_some.2 ⟨q, ps, hq, hps⟩
  refine ⟨fun base hd hf hm hcfg hr => ?_, fun base m h => ?_, step_cut_of_hostRaces he hp, fun h => ?_⟩
  · rw [step_cut_process he hp hd hf (State.notConfigured_eq_false.2 ⟨hm, hcfg⟩) hr]
    cases hrun : s.runAccesses ((s.frameAccesses base).take n) Pixel.blank s.mem with
    | error a => rfl
    | ok made =>
      refine ⟨rfl, fun a ha => State.runAccesses_frame (fun hmem => ha ?_) hrun⟩
      obtain ⟨b, hb, rfl⟩ := List.mem_map.1 hmem
      exact State.frameAccesses_take_addr hb
  · exact State.runAccesses_completes fun a ha => h.provided _ (State.frameAccesses_take_addr ha)
  · have hnone : s.fault = true ∨ (∀ base, decodePacket p ≠ .ok (.process base)) ∨ s.notConfigured = true := by
      simpa [State.notConfigured] using h
    rw [step_cut_of_not_hostRaces he hp (not_hostRaces_of_claimOf_eq_nil (State.claimOf_eq_nil hnone)),
      cutPacket_noAccess (by exact hnone)]
    rfl

/-! ### A disjoint frame cut short -/

/-- The accesses of some units, up to any one of them, leave every byte outside the footprints of these. -/
theorem State.units_take_keep {s : State} {base : Word} {us : List (Nat × Nat)} {A : List Nat} {n : Nat}
    {px px' : Pixel} {m m' : Memory} (hA : List.Disjoint A (us.flatMap fun u => s.unitFootprint base u.1 u.2))
    (h : s.runAccesses ((us.flatMap fun u => s.unitAccesses base u.1 u.2).take n) px m = .ok (px', m')) :
    Memory.agreeOn A m m' := by
  refine fun a ha => State.runAccesses_frame (fun hmem => hA ha ?_) h
  obtain ⟨b, hb, rfl⟩ := List.mem_map.1 hmem
  obtain ⟨u, hu, hbu⟩ := List.mem_flatMap.1 (List.mem_of_mem_take hb)
  exact List.mem_flatMap.2 ⟨u, hu, (s.unitAccesses_addr base u.1 u.2 b.addr).1 (List.mem_map_of_mem hbu)⟩

/-- On a disjoint frame cut short each unit leaves in its bytes what some first accesses of it leave there on the memory
the frame began with: the cut falls before, inside or after the unit, and no other unit reaches its bytes. -/
theorem State.unit_of_cut_disjoint_frame {s : State} {base : Word} {n : Nat} {px px' : Pixel} {m m' : Memory} {i j : Nat}
    (hd : s.geomDisjoint base) (h : s.runAccesses ((s.frameAccesses base).take n) px m = .ok (px', m'))
    (hi : i < s.geom.height.toNat) (hj : j < s.geom.width.toNat) :
    ∃ c px1 k, s.memoryLeft ((s.unitAccesses base i j).take c) px1 m = some k ∧
      Memory.agreeOn (s.unitFootprint base i j) k m' := by
  obtain ⟨before, after, hunits⟩ := List.append_of_mem (State.mem_units.2 ⟨hi, hj⟩ : (i, j) ∈ s.units)
  simp only [State.geomDisjoint, State.footprint, hunits, List.flatMap_append, List.flatMap_cons] at hd
  simp only [State.frameAccesses, hunits, List.flatMap_append, List.flatMap_cons, List.take_append] at h
  obtain ⟨px1, m1, hbefore, h⟩ := State.runAccesses_append_ok.1 h
  obtain ⟨px2, m2, hunit, hafter⟩ := State.runAccesses_append_ok.1 h
  have hdbefore := (List.disjoint_append_right.1 (List.disjoint_of_nodup_append hd)).1.symm
  have hdafter := List.disjoint_of_nodup_append (List.Nodup.of_append_right hd)
  have hsame : Memory.agreeOn (s.unitFootprint base i j) m1 m := fun a ha =>
    (State.units_take_keep hdbefore hbefore a ha).symm
  obtain ⟨k, hk, hagree⟩ := State.runAccesses_agree (fun a ha =>
    (s.unitAccesses_addr base i j a.addr).1 (List.mem_map_of_mem (List.mem_of_mem_take ha))) hsame hunit
  exact ⟨_, px1, k, State.memoryLeft_eq_some.2 ⟨px2, hk⟩, fun a ha =>
    (State.units_take_keep hdafter hafter a ha).trans (hagree a ha).symm⟩

/-- A planar unit cut short has left its byte or remapped it: its read writes nothing (R91). -/
theorem State.read_of_cut_planar_unit {s : State} {base : Word} {i j c : Nat} {px : Pixel} {m k : Memory} {x : Byte}
    (hm : s.mode = .planar) (hx : Memory.read m (s.planarAddr base i j) = some x)
    (h : s.memoryLeft ((s.unitAccesses base i j).take c) px m = some k) :
    Memory.read k (s.planarAddr base i j) = some x ∨
      Memory.read k (s.planarAddr base i j) = some (lookup s.luma x) := by
  have hacc : s.unitAccesses base i j =
      [.read .x (s.planarAddr base i j), .write .lumaX (s.planarAddr base i j)] := by rw [State.unitAccesses, hm]
  rcases c with _ | _ | c
  · obtain rfl : m = k := by simpa [State.memoryLeft, Except.toOption] using h
    exact .inl hx
  · obtain rfl : m = k := by
      simpa [hacc, State.memoryLeft, State.runAccesses, State.access, hx, Except.toOption] using h
    exact .inl hx
  · rw [List.take_of_length_le (by simp [hacc]), State.planar_actsAs hm, State.planarUnit, hx] at h
    obtain rfl := Option.some.inj h
    exact .inr (Memory.read_write_same _ _ _)

/-- Settles O55: the step that answers is a cut `PROCESS` that no host raced, and it leaves in each unit what some first
accesses of that unit alone leave. -/
theorem cutPlanarByteIsOldOrRemapped : Obligations.CutPlanarByteIsOldOrRemapped := by
  intro s t k n rest p base i j x he hp hd h hdisj hi hj hx hs
  have hc : s.notConfigured = false := State.notConfigured_eq_false.2 ⟨by simp [h.mode], h.cfgerr⟩
  by_cases hr : HostRaces s k p
  · obtain ⟨a, ha⟩ := step_cut_of_hostRaces he hp hr
    simp [ha] at hs
  · rw [step_cut_process he hp hd h.good hc hr] at hs
    cases hrun : s.runAccesses ((s.frameAccesses base).take n) Pixel.blank s.mem with
    | error a => simp [hrun] at hs
    | ok made =>
      simp only [hrun, Host.Outcome.next.injEq] at hs
      subst hs
      obtain ⟨c, px1, m, hleft, hagree⟩ := State.unit_of_cut_disjoint_frame hdisj hrun hi hj
      have hbyte : Memory.read made.2 (s.planarAddr base i j) = Memory.read m (s.planarAddr base i j) :=
        hagree _ (by simp [State.unitFootprint, h.mode])
      exact hbyte ▸ State.read_of_cut_planar_unit h.mode hx hleft

/-! ### A second pass over a frame (R148) -/

/-- A `PROCESS` of a frame that is ready leaves it ready, with the parameters, the geometry and the luma table it had. -/
theorem ready_after_process {s t : State} {base : Word} {mode : Mode} (h : Ready s base mode) (hm : mode ≠ .unconfigured)
    (hx : exec (.process base) s = .next t) :
    Ready t base mode ∧ t.params = s.params ∧ t.geom = s.geom ∧ t.luma = s.luma := by
  cases exec_effect hx with
  | processNotConfigured _ hn =>
    have hc : s.notConfigured = false := State.notConfigured_eq_false.2 ⟨h.mode ▸ hm, h.cfgerr⟩
    simp [hc] at hn
  | process _ pm _ hrun =>
    exact ⟨⟨h.good, h.mode, h.cfgerr, fun a ha => State.runAccesses_provided hrun (h.provided a ha)⟩, rfl, rfl, rfl⟩

/-- The fixed points of the built luma table (R76). -/
theorem lookup_lumaTable_eq_self_iff {y : Byte} : lookup lumaTable y = y ↔ 110#8 ≤ y ∧ y ≤ 116#8 :=
  (lookup_compare_self lookup_lumaTable (lo := 110#8) (hi := 116#8) (lumaEntry_compare_self y.toNat)).1

/-- Settles O30: the first pass leaves the frame ready, so the second remaps what the first left, which is then a fixed
point of the table exactly in 110..116. -/
theorem secondPlanarPassRemapsAgain : Obligations.SecondPlanarPassRemapsAgain := by
  intro base s h hd hluma
  obtain ⟨t, ht, hfirst⟩ := planarResultOnDisjointFrame base s h hd
  obtain ⟨hready, hparams, hgeom, hlumat⟩ := ready_after_process h (by decide) ht
  have hdt : t.geomDisjoint base := by
    rwa [State.geomDisjoint, State.footprint_congr hparams (hready.mode.trans h.mode.symm) hgeom]
  obtain ⟨u, hu, hsecond⟩ := planarResultOnDisjointFrame base t hready hdt
  rw [hparams, hgeom, hlumat, hluma] at hsecond
  rw [hluma] at hfirst
  refine ⟨t, u, ht, hu, fun i j hi hj => ?_⟩
  obtain ⟨x, hx, hy⟩ := hfirst i j hi hj
  obtain ⟨y, hy', hz⟩ := hsecond i j hi hj
  obtain rfl : lookup lumaTable x = y := Option.some.inj (hy.symm.trans hy')
  exact ⟨x, _, _, hx, hy, hz, rfl, lookup_lumaTable_eq_self_iff⟩

end Sys2Proof.Machine
end
